-- ==== Sys2Proof/Word.lean ====
section
/-!
DEFINITION. The widths of the machine: bytes, 16-bit words, register numbers.
spec/00_scope.md R7, R9, R10: every value is unsigned, bit 0 is the least significant bit.
-/
namespace Sys2Proof

/-- One byte of memory, one general register, one timer (R14, R24, R25). -/
abbrev Byte := BitVec 8

/-- A 16-bit value: the opcode, `pc`, `I`, a stack entry (R18, R20, R22, R52). -/
abbrev Word := BitVec 16

/-- The literal address `nnn` of an opcode, 12 bits (R54). -/
abbrev Addr := BitVec 12

/-- The number of a general register V0..VF: every value of a 4-bit field names one (R14). -/
abbrev Reg := Fin 16

/-- The number of a key 0x0..0xF (R27). -/
abbrev Key := Fin 16

/-- The register VF, which receives the flags (R15). -/
abbrev VF : Reg := 15

end Sys2Proof
end

