-- ==== Sys2Proof/Config.lean ====
section
/-!
DEFINITION. The parameters of spec/00_scope.md R8 that the spec leaves OPEN, as constants without a body: no proof can
learn a value of one, so a claim holds for every value the spec allows. The one decided parameter has its decided value.
-/
namespace Sys2Proof.Config

/-- `GLYPH_BASE` (R8, D18, OPEN): the address of the glyph of digit 0, any address from 0x000 to 0x1B0. Log 4: a free
value, safe. -/
opaque glyphBase : Fin 0x1B1

/-- `FONT_DATA` (R8, D19, OPEN): the 80 bytes at GLYPH_BASE after reset. Log 5: free values, safe. -/
opaque fontData : Fin 80 → Byte

/-- The free choice behind `KEY_CHOICE` (R8, R99, D15, OPEN): a number for each set of pressed keys (the set as its
rising list), which `Sys2Proof.Machine.chooseKey` turns into a member of that set. Log 6: a free value, safe. -/
opaque keyPick : List Key → Nat

/-- The byte `rnd` of the n-th OP_CYCLE that a step performs of itself (R8, R89, D20): a draw under no law. Log 2: a free
value, safe. -/
opaque rndDraw : Nat → Byte

/-- `RESERVED_WRITE_FAULTS` (R8, R44, D5): this hardware takes `true`. Log 7. -/
def reservedWriteFaults : Bool := true

end Sys2Proof.Config
end

