-- ==== Sys2Proof/Machine/Operation.lean ====
section
/-!
DEFINITION. The interface operations of the block, spec/10_state.md R31: what the environment can do to it.
-/
namespace Sys2Proof.Machine

/-- The longest ROM that fits: 0x1000 - 0x200 bytes (R7, R120). -/
def maxRomSize : Nat := 3584

/-- An interface operation with its inputs (R31). The output `sound_on` is no operation: see
`Sys2Proof.Machine.State.soundOn`. -/
inductive Op where
  /-- OP_CREATE(rom): the block's only reset (R120). -/
  | create (rom : List Byte)
  /-- OP_CYCLE(rnd): fetch, decode and execute one instruction (R61). -/
  | cycle (rnd : Byte)
  /-- OP_TICK: both timers down by one, floor zero (R112). -/
  | tick
  /-- OP_PRESS(k) (R115). -/
  | press (k : Nat)
  /-- OP_RELEASE(k) (R115). -/
  | release (k : Nat)
  /-- OP_READ_DISPLAY (R116). -/
  | readDisplay
  /-- OP_CLEAR_DIRTY (R116). -/
  | clearDirty
deriving DecidableEq, Repr

end Sys2Proof.Machine
end

