-- ==== Sys2Proof/Syntax.lean ====
section
/-!
DEFINITION. The 34 instructions, one constructor for each row of spec/opcode_table.json, in the table's order.
Operand fields are those of spec/30_encoding.md R53 and R54, each of exactly its field's width.
-/
namespace Sys2Proof

/-- An instruction of spec/30_encoding.md R56 with its operand fields (R54). The `y` of `shr` and `shl` is encoded and
never read (R86, R88): it stands here so that decoding loses no bit of the word. -/
inductive Instr where
  /-- 00E0 CLS (R64). -/
  | cls
  /-- 00EE RET (R68). -/
  | ret
  /-- 1nnn JP nnn (R69). -/
  | jp (nnn : Addr)
  /-- 2nnn CALL nnn (R70). -/
  | call (nnn : Addr)
  /-- 3xkk SE Vx, kk (R71). -/
  | seByte (x : Reg) (kk : Byte)
  /-- 4xkk SNE Vx, kk (R72). -/
  | sneByte (x : Reg) (kk : Byte)
  /-- 5xy0 SE Vx, Vy (R73). -/
  | seReg (x y : Reg)
  /-- 6xkk LD Vx, kk (R78). -/
  | ldByte (x : Reg) (kk : Byte)
  /-- 7xkk ADD Vx, kk (R79). -/
  | addByte (x : Reg) (kk : Byte)
  /-- 8xy0 LD Vx, Vy (R80). -/
  | ldReg (x y : Reg)
  /-- 8xy1 OR Vx, Vy (R81). -/
  | orReg (x y : Reg)
  /-- 8xy2 AND Vx, Vy (R82). -/
  | andReg (x y : Reg)
  /-- 8xy3 XOR Vx, Vy (R83). -/
  | xorReg (x y : Reg)
  /-- 8xy4 ADD Vx, Vy (R84). -/
  | addReg (x y : Reg)
  /-- 8xy5 SUB Vx, Vy (R85). -/
  | subReg (x y : Reg)
  /-- 8xy6 SHR Vx (R86). -/
  | shr (x y : Reg)
  /-- 8xy7 SUBN Vx, Vy (R87). -/
  | subnReg (x y : Reg)
  /-- 8xyE SHL Vx (R88). -/
  | shl (x y : Reg)
  /-- 9xy0 SNE Vx, Vy (R74). -/
  | sneReg (x y : Reg)
  /-- Annn LD I, nnn (R90). -/
  | ldI (nnn : Addr)
  /-- Bnnn JP V0, nnn (R75). -/
  | jpV0 (nnn : Addr)
  /-- Cxkk RND Vx, kk (R89). -/
  | rnd (x : Reg) (kk : Byte)
  /-- Dxyn DRW Vx, Vy, n (R65); `n` is the row count 0..15. -/
  | drw (x y : Reg) (n : Fin 16)
  /-- Ex9E SKP Vx (R96). -/
  | skp (x : Reg)
  /-- ExA1 SKNP Vx (R97). -/
  | sknp (x : Reg)
  /-- Fx07 LD Vx, DT (R98). -/
  | ldVxDT (x : Reg)
  /-- Fx0A LD Vx, K (R99). -/
  | ldVxK (x : Reg)
  /-- Fx15 LD DT, Vx (R100). -/
  | ldDTVx (x : Reg)
  /-- Fx18 LD ST, Vx (R101). -/
  | ldSTVx (x : Reg)
  /-- Fx1E ADD I, Vx (R91). -/
  | addI (x : Reg)
  /-- Fx29 LD F, Vx (R92). -/
  | ldF (x : Reg)
  /-- Fx33 LD B, Vx (R93). -/
  | ldB (x : Reg)
  /-- Fx55 LD [I], Vx (R94). -/
  | storeRegs (x : Reg)
  /-- Fx65 LD Vx, [I] (R95). -/
  | loadRegs (x : Reg)
deriving DecidableEq, Repr

end Sys2Proof
end

