-- ==== Sys2Proof/WellFormed.lean ====
section
/-!
DEFINITION. Which terms have a meaning. Every operand field of an instruction has exactly the width of its encoding and
every value of it is legal (spec/10_state.md R14, spec/30_encoding.md R54 and R55), so the type `Instr` holds no
ill-formed term; the inputs of three interface operations have a contract, and these are the checks here.
-/
namespace Sys2Proof

/-- Every instruction term is well formed: no register number can be out of range (R14), `kk`, `nnn` and `n` use their
whole width (R55), and the ignored `y` of SHR and SHL may be anything (R54). One line per shape of R53. -/
def Instr.wellFormed : Instr → Bool
  | .cls | .ret => true
  | .jp _ | .call _ | .ldI _ | .jpV0 _ => true
  | .seByte _ _ | .sneByte _ _ | .ldByte _ _ | .addByte _ _ | .rnd _ _ => true
  | .seReg _ _ | .sneReg _ _ | .ldReg _ _ | .orReg _ _ | .andReg _ _ | .xorReg _ _ => true
  | .addReg _ _ | .subReg _ _ | .shr _ _ | .subnReg _ _ | .shl _ _ => true
  | .drw _ _ _ => true
  | .skp _ | .sknp _ | .ldVxDT _ | .ldVxK _ | .ldDTVx _ | .ldSTVx _ => true
  | .addI _ | .ldF _ | .ldB _ | .storeRegs _ | .loadRegs _ => true

/-- The contracts of the interface operations: a ROM fits the program region (R120), a key index is 0..15 (R115). -/
def Machine.Op.wellFormed : Machine.Op → Bool
  | .create rom => decide (rom.length ≤ Machine.maxRomSize)
  | .press k => decide (k < 16)
  | .release k => decide (k < 16)
  | .cycle _ | .tick | .readDisplay | .clearDirty => true

end Sys2Proof
end

