-- ==== Sys2Proof/Decode.lean ====
section
/-!
DEFINITION. Decoding (spec/30_encoding.md R52-R59) and the encoder written from the same formats (R53).
-/
namespace Sys2Proof

/-! ### The fields of an opcode (R54) -/

/-- The dispatch nibble `h = op[15:12]`. -/
def fieldH (op : Word) : BitVec 4 := op.extractLsb' 12 4
/-- `x = op[11:8]`. -/
def fieldX (op : Word) : Reg := (op.extractLsb' 8 4).toFin
/-- `y = op[7:4]`. -/
def fieldY (op : Word) : Reg := (op.extractLsb' 4 4).toFin
/-- `n = op[3:0]`, as a count. -/
def fieldN (op : Word) : Fin 16 := (op.extractLsb' 0 4).toFin
/-- The function nibble `op[3:0]`. -/
def fieldF (op : Word) : BitVec 4 := op.extractLsb' 0 4
/-- `kk = op[7:0]`, also the function byte of the families 0xE and 0xF. -/
def fieldKK (op : Word) : Byte := op.extractLsb' 0 8
/-- `nnn = op[11:0]`. -/
def fieldNNN (op : Word) : Addr := op.extractLsb' 0 12

/-! ### Decoding -/

/-- Why bytes are not an instruction. -/
inductive Reject where
  /-- The word matches no pattern (R58): executing it raises INVALID_INSTRUCTION. -/
  | invalidInstruction (op : Word)
  /-- Fewer than two bytes: every instruction is exactly 16 bits long (R52). The machine's fetch never gives this. -/
  | truncated
deriving DecidableEq, Repr

/-- The family 0x8, selected by its low nibble (R56). -/
def decode8 (op : Word) : Except Reject Instr :=
  match fieldF op with
  | 0x0#4 => .ok (.ldReg (fieldX op) (fieldY op))
  | 0x1#4 => .ok (.orReg (fieldX op) (fieldY op))
  | 0x2#4 => .ok (.andReg (fieldX op) (fieldY op))
  | 0x3#4 => .ok (.xorReg (fieldX op) (fieldY op))
  | 0x4#4 => .ok (.addReg (fieldX op) (fieldY op))
  | 0x5#4 => .ok (.subReg (fieldX op) (fieldY op))
  | 0x6#4 => .ok (.shr (fieldX op) (fieldY op))
  | 0x7#4 => .ok (.subnReg (fieldX op) (fieldY op))
  | 0xE#4 => .ok (.shl (fieldX op) (fieldY op))
  | _ => .error (.invalidInstruction op)

/-- The family 0xE, selected by its low byte (R56). -/
def decodeE (op : Word) : Except Reject Instr :=
  match fieldKK op with
  | 0x9E#8 => .ok (.skp (fieldX op))
  | 0xA1#8 => .ok (.sknp (fieldX op))
  | _ => .error (.invalidInstruction op)

/-- The family 0xF, selected by its low byte (R56). -/
def decodeF (op : Word) : Except Reject Instr :=
  match fieldKK op with
  | 0x07#8 => .ok (.ldVxDT (fieldX op))
  | 0x0A#8 => .ok (.ldVxK (fieldX op))
  | 0x15#8 => .ok (.ldDTVx (fieldX op))
  | 0x18#8 => .ok (.ldSTVx (fieldX op))
  | 0x1E#8 => .ok (.addI (fieldX op))
  | 0x29#8 => .ok (.ldF (fieldX op))
  | 0x33#8 => .ok (.ldB (fieldX op))
  | 0x55#8 => .ok (.storeRegs (fieldX op))
  | 0x65#8 => .ok (.loadRegs (fieldX op))
  | _ => .error (.invalidInstruction op)

/-- The opcode map of R56: total on the 65536 words, a word that matches no pattern rejected with its value (R57, R58).
The families 0x5 and 0x9 test their low nibble too (90_conflicts.md C6). -/
def decode (op : Word) : Except Reject Instr :=
  match fieldH op with
  | 0x0#4 =>
    if op = 0x00E0#16 then .ok .cls
    else if op = 0x00EE#16 then .ok .ret
    else .error (.invalidInstruction op)
  | 0x1#4 => .ok (.jp (fieldNNN op))
  | 0x2#4 => .ok (.call (fieldNNN op))
  | 0x3#4 => .ok (.seByte (fieldX op) (fieldKK op))
  | 0x4#4 => .ok (.sneByte (fieldX op) (fieldKK op))
  | 0x5#4 =>
    if fieldF op = 0x0#4 then .ok (.seReg (fieldX op) (fieldY op)) else .error (.invalidInstruction op)
  | 0x6#4 => .ok (.ldByte (fieldX op) (fieldKK op))
  | 0x7#4 => .ok (.addByte (fieldX op) (fieldKK op))
  | 0x8#4 => decode8 op
  | 0x9#4 =>
    if fieldF op = 0x0#4 then .ok (.sneReg (fieldX op) (fieldY op)) else .error (.invalidInstruction op)
  | 0xA#4 => .ok (.ldI (fieldNNN op))
  | 0xB#4 => .ok (.jpV0 (fieldNNN op))
  | 0xC#4 => .ok (.rnd (fieldX op) (fieldKK op))
  | 0xD#4 => .ok (.drw (fieldX op) (fieldY op) (fieldN op))
  | 0xE#4 => decodeE op
  | _ => decodeF op -- the one nibble left, 0xF

/-- The opcode of two bytes, the one at the lower address first: bits 15:8, then bits 7:0 (R36). -/
def opcodeOfBytes (hi lo : Byte) : Word := hi ++ lo

/-- Decoding a stream of bytes: two bytes are consumed, always (R52). -/
def decodeBytes : List Byte → Except Reject (Instr × List Byte)
  | hi :: lo :: rest =>
    match decode (opcodeOfBytes hi lo) with
    | .ok i => .ok (i, rest)
    | .error r => .error r
  | _ => .error .truncated

/-! ### Encoding, format by format (R53) -/

/-- The 4-bit field that holds a register number or a count. -/
def nibble (v : Fin 16) : BitVec 4 := BitVec.ofFin v

/-- Format ADDR: `h` and `nnn`. -/
def wordAddr (h : BitVec 4) (nnn : Addr) : Word := h ++ nnn
/-- Format XKK: `h`, `x`, `kk`; with a function byte for `kk` it is format XFF. -/
def wordXKK (h : BitVec 4) (x : Reg) (kk : Byte) : Word := (h ++ nibble x) ++ kk
/-- Format XYF: `h`, `x`, `y` and the function nibble; with the count for `f` it is format XYN. -/
def wordXYF (h : BitVec 4) (x y : Reg) (f : BitVec 4) : Word := (h ++ nibble x) ++ (nibble y ++ f)

/-- The word of an instruction (R53, R56). -/
def encode : Instr → Word
  | .cls => 0x00E0#16
  | .ret => 0x00EE#16
  | .jp nnn => wordAddr 0x1#4 nnn
  | .call nnn => wordAddr 0x2#4 nnn
  | .seByte x kk => wordXKK 0x3#4 x kk
  | .sneByte x kk => wordXKK 0x4#4 x kk
  | .seReg x y => wordXYF 0x5#4 x y 0x0#4
  | .ldByte x kk => wordXKK 0x6#4 x kk
  | .addByte x kk => wordXKK 0x7#4 x kk
  | .ldReg x y => wordXYF 0x8#4 x y 0x0#4
  | .orReg x y => wordXYF 0x8#4 x y 0x1#4
  | .andReg x y => wordXYF 0x8#4 x y 0x2#4
  | .xorReg x y => wordXYF 0x8#4 x y 0x3#4
  | .addReg x y => wordXYF 0x8#4 x y 0x4#4
  | .subReg x y => wordXYF 0x8#4 x y 0x5#4
  | .shr x y => wordXYF 0x8#4 x y 0x6#4
  | .subnReg x y => wordXYF 0x8#4 x y 0x7#4
  | .shl x y => wordXYF 0x8#4 x y 0xE#4
  | .sneReg x y => wordXYF 0x9#4 x y 0x0#4
  | .ldI nnn => wordAddr 0xA#4 nnn
  | .jpV0 nnn => wordAddr 0xB#4 nnn
  | .rnd x kk => wordXKK 0xC#4 x kk
  | .drw x y n => wordXYF 0xD#4 x y (nibble n)
  | .skp x => wordXKK 0xE#4 x 0x9E#8
  | .sknp x => wordXKK 0xE#4 x 0xA1#8
  | .ldVxDT x => wordXKK 0xF#4 x 0x07#8
  | .ldVxK x => wordXKK 0xF#4 x 0x0A#8
  | .ldDTVx x => wordXKK 0xF#4 x 0x15#8
  | .ldSTVx x => wordXKK 0xF#4 x 0x18#8
  | .addI x => wordXKK 0xF#4 x 0x1E#8
  | .ldF x => wordXKK 0xF#4 x 0x29#8
  | .ldB x => wordXKK 0xF#4 x 0x33#8
  | .storeRegs x => wordXKK 0xF#4 x 0x55#8
  | .loadRegs x => wordXKK 0xF#4 x 0x65#8

/-- The bytes of a word as memory holds them, the high byte first (R36). -/
def bytesOfWord (op : Word) : List Byte := [op.extractLsb' 8 8, op.extractLsb' 0 8]

/-- The opcode whose bits are `w` when `nbits` of them are given and the rest are 0. -/
def tableWord (nbits w : Nat) : Word := BitVec.ofNat 16 (w % 2 ^ nbits)

/-- What the decoder reads from the bytes of a table row's word; `none` where it rejects them. -/
def decodeTableWord (nbits w : Nat) : Option Instr :=
  match decodeBytes (bytesOfWord (tableWord nbits w)) with
  | .ok (i, _) => some i
  | .error _ => none

end Sys2Proof
end

