-- ==== Sys2Proof/Machine/State.lean ====
section
/-!
DEFINITION. The state of the block (spec/10_state.md R14-R33), the reasons a step can stop, and the state after reset.
The fields have the spec's own names (R11).
-/
namespace Sys2Proof.Machine

/-- The fault causes of spec/60_exceptions.md R102. Raising one is a NEXT state whose `status` is halted (R103). -/
inductive Cause where
  /-- Code 1: a word that matches no pattern (R58). -/
  | invalidInstruction
  /-- Code 2: CALL with 16 entries on the stack (R23, R70). -/
  | stackOverflow
  /-- Code 3: RET with an empty stack (R23, R68). -/
  | stackUnderflow
  /-- Code 4: a fetch, read or write above 0xFFF (R41). -/
  | addressRange
  /-- Code 5: a data write below 0x200 (R44). -/
  | reservedWrite
  /-- Code 6: a key index above 15 in SKP or SKNP (R96, R97). -/
  | keyRange
deriving DecidableEq, Repr

/-- The engine status (R29). -/
inductive Status where
  /-- OP_CYCLE executes instructions. -/
  | running
  /-- A fault has ended execution: the cause and its 16-bit information value (R102, R103). -/
  | halted (cause : Cause) (info : Word)
deriving DecidableEq, Repr

/-- The listed bytes of memory in their canonical form: addresses strictly rising, no byte equal to what an unlisted
address reads as (`Sys2Proof.Machine.Memory.wf`). Log 8. -/
abbrev Memory := List Host.Cell

/-- `FB[px][py]`: 64 columns of 32 one-bit pixels (R26). -/
abbrev Framebuffer := Vector (Vector Bool 32) 64

/-- What the environment does to the block. These are inputs of the block's steps, no state of the block (R32): the
model's own fields. DESIGN CHOICE, logs 1, 2 and 10. -/
structure Env where
  /-- The operations the environment performs next, the next one first (R47, R127). -/
  pending : List Op
  /-- The byte `rnd` given with the OP_CYCLE in progress (R31, R89). -/
  rnd : Byte
  /-- How many free draws the steps have taken so far. -/
  draws : Nat
deriving DecidableEq, Repr

/-- Everything the spec gives the machine, and the environment's choices in `env`. -/
structure State where
  /-- The general registers V0..VF (R14); VF is `V[15]` (R15). -/
  V : Vector Byte 16
  /-- The index register (R18). -/
  I : Word
  /-- The program counter (R20). -/
  pc : Word
  /-- The number of stack entries in use, 0..16 (R22). -/
  SP : Fin 17
  /-- The call stack entries S[0]..S[15] (R22). -/
  S : Vector Word 16
  /-- The delay timer (R24). -/
  DT : Byte
  /-- The sound timer (R24). -/
  ST : Byte
  /-- The memory (R25, R34). -/
  M : Memory
  /-- The framebuffer (R26). -/
  FB : Framebuffer
  /-- The keypad: `K[k]` is true when key k is pressed (R27). -/
  K : Vector Bool 16
  /-- The draw-dirty flag (R28). -/
  dirty : Bool
  /-- The engine status (R29). -/
  status : Status
  /-- The environment's choices, the model's own. -/
  env : Env
deriving DecidableEq, Repr

/-- There is NO constructor: every fault of the block has an effect the spec gives (R103: `status` becomes halted and
nothing else changes), so a meaning takes it as a next state and no step ends in `Host.Outcome.fault`. Log 3, safe. -/
inductive Fault where
deriving DecidableEq, Repr

/-- Why a step has no next state. The first three are the host operations that the spec tells a model to refuse. -/
inductive Refusal where
  /-- `LOAD_ERROR` (R109, R120): raised by OP_CREATE for a ROM of `length` bytes, above 3584; no state is written. Safe:
  U10 of spec/93_implementation_defined.md refuses such a run. -/
  | loadError (length : Nat)
  /-- `INPUT_CONTRACT` (R109, R115): raised by OP_PRESS and OP_RELEASE for a key index `k` above 15; nothing is written.
  Safe: R115 says a model refuses such an operation. -/
  | inputContract (k : Nat)
  /-- An operation before the first successful OP_CREATE (R120): raised by `Sys2Proof.Machine.performBlock` only. Safe:
  there is no state to operate on. -/
  | noBlock
  /-- An instruction without a meaning: no arm of `exec` raises it. Safe. -/
  | notModelled (mnemonic : String)
deriving DecidableEq, Repr

/-- No operation chosen by the environment, no draw taken. DESIGN CHOICE, log 10. -/
def Env.initial : Env := { pending := [], rnd := 0, draws := 0 }

/-- The state after OP_CREATE of the empty ROM: the table of R33, memory with nothing listed (what the unlisted
addresses read as is R33's too: `Sys2Proof.Machine.resetByte`). Log 9. -/
def State.reset : State where
  V := Vector.replicate 16 0
  I := 0
  pc := 0x200
  SP := 0
  S := Vector.replicate 16 0
  DT := 0
  ST := 0
  M := []
  FB := Vector.replicate 64 (Vector.replicate 32 false)
  K := Vector.replicate 16 false
  dirty := false
  status := .running
  env := Env.initial

end Sys2Proof.Machine
end

