-- ==== Sys2Proof/Machine/Ops.lean ====
section
/-!
DEFINITION. The shared operations: writing one piece of state, memory, range checks, fetch, raising a fault, the call
stack, the framebuffer and the choice of a key. A meaning is written over these.
-/
namespace Sys2Proof.Machine

/-- What a meaning answers. -/
abbrev Result := Host.Outcome State Fault Refusal

/-! ### Writing one piece of state (R11) -/

/-- `V[x] <- b`. No register is hardwired (R14). -/
def State.setV (x : Reg) (b : Byte) (s : State) : State := { s with V := s.V.set x b }
/-- Every general register at once. -/
def State.setRegs (v : Vector Byte 16) (s : State) : State := { s with V := v }
/-- `I <- w` (R18). -/
def State.setI (w : Word) (s : State) : State := { s with I := w }
/-- `pc <- target` (R11). -/
def State.setPC (target : Word) (s : State) : State := { s with pc := target }
/-- The call stack's depth and entries. -/
def State.setStack (depth : Fin 17) (entries : Vector Word 16) (s : State) : State :=
  { s with SP := depth, S := entries }
/-- `DT <- b` (R24). -/
def State.setDT (b : Byte) (s : State) : State := { s with DT := b }
/-- `ST <- b` (R24). -/
def State.setST (b : Byte) (s : State) : State := { s with ST := b }
/-- The memory. -/
def State.setM (m : Memory) (s : State) : State := { s with M := m }
/-- The framebuffer (R26). -/
def State.setFB (fb : Framebuffer) (s : State) : State := { s with FB := fb }
/-- `K[k] <- pressed`: only the host operations write the keypad (R27). -/
def State.setKey (k : Key) (pressed : Bool) (s : State) : State := { s with K := s.K.set k pressed }
/-- `dirty <- b` (R28). -/
def State.setDirty (b : Bool) (s : State) : State := { s with dirty := b }
/-- `status <- st` (R29). -/
def State.setStatus (st : Status) (s : State) : State := { s with status := st }
/-- The model's own fields (log 1). -/
def State.setEnv (e : Env) (s : State) : State := { s with env := e }

/-! ### The next pc (R62), in 16 bits -/

/-- Fall through: `pc <- pc + 2`. -/
def State.advance (s : State) : State := s.setPC (s.pc + 2)
/-- A skip instruction: `pc + 4` when its condition holds, `pc + 2` otherwise (R67). -/
def State.skipIf (c : Bool) (s : State) : State := s.setPC (if c then s.pc + 4 else s.pc + 2)

/-! ### Memory (R34, R40) -/

/-- What an unlisted address reads as: the byte's contents after reset with nothing loaded (R33, R42). The font lies in
the reserved region, so an address from 0x200 on is 0 without asking where the font is. Log 8. -/
def resetByte (a : Nat) : Byte :=
  if a < 0x200 then
    if h : Config.glyphBase.val ≤ a ∧ a - Config.glyphBase.val < 80 then
      Config.fontData ⟨a - Config.glyphBase.val, h.2⟩
    else 0
  else 0

/-- List a byte in front of higher addresses, or leave it out where it is the unlisted value. -/
def Memory.put (a : Nat) (b : Byte) (m : Memory) : Memory :=
  if b = resetByte a then m else (a, b) :: m

/-- The byte `M[a]`. -/
def Memory.read : Memory → Nat → Byte
  | [], a => resetByte a
  | (a', b) :: m, a => if a = a' then b else Memory.read m a

/-- `M[a] <- b`, which keeps the canonical form. -/
def Memory.write : Memory → Nat → Byte → Memory
  | [], a, b => Memory.put a b []
  | (a', b') :: m, a, b =>
    if a < a' then Memory.put a b ((a', b') :: m)
    else if a = a' then Memory.put a b m
    else (a', b') :: Memory.write m a b

/-- Bytes at rising addresses from `a`. The order of an instruction's accesses is unobservable (R40); the last byte is
written first, so that loading a ROM inserts at the front of the list. Log 13. -/
def Memory.writeBytes : Memory → Nat → List Byte → Memory
  | m, _, [] => m
  | m, a, b :: bs => Memory.write (Memory.writeBytes m (a + 1) bs) a b

/-- The bytes of the `n` addresses from `a` on. -/
def Memory.readBytes (m : Memory) (a : Nat) : Nat → List Byte
  | 0 => []
  | n + 1 => m.read a :: Memory.readBytes m (a + 1) n

/-- The canonical form: addresses strictly rising, no listed byte equal to what an unlisted address reads as. -/
def Memory.wf : Memory → Bool
  | [] => true
  | (a, b) :: m => b != resetByte a && m.all (fun c => a < c.1) && Memory.wf m

/-! ### Range checks (R41, R44, R45) -/

/-- The check of a read or a fetch of one byte: ADDRESS_RANGE above 0xFFF (R41). Reading the reserved region is allowed
(R43). -/
def readCheck (a : Nat) : Option Cause :=
  if 0xFFF < a then some .addressRange else none

/-- The check of a write of one byte: ADDRESS_RANGE before RESERVED_WRITE (R44, R45). -/
def writeCheck (a : Nat) : Option Cause :=
  if 0xFFF < a then some .addressRange
  else if Config.reservedWriteFaults && decide (a < 0x200) then some .reservedWrite
  else none

/-- The first of the `n` addresses from `a` on that a check turns down, in the instruction's own order (R45). -/
def firstFault (check : Nat → Option Cause) (a : Nat) : Nat → Option (Cause × Nat)
  | 0 => none
  | n + 1 =>
    match check a with
    | some c => some (c, a)
    | none => firstFault check (a + 1) n

/-! ### Raising a fault (R103, R104) -/

/-- The numeric code of a cause (R102). -/
def Cause.code : Cause → Nat
  | .invalidInstruction => 1
  | .stackOverflow => 2
  | .stackUnderflow => 3
  | .addressRange => 4
  | .reservedWrite => 5
  | .keyRange => 6

/-- `raise Fault(cause, info)` in state `s`, the state before the instruction: every write of the instruction is
discarded, `status` becomes HALTED, nothing else changes (R13, R103, R104). There is no vector and no saved register;
what ends the halt is OP_CREATE alone (R106), `Sys2Proof.Machine.opCreate`. -/
def raise (cause : Cause) (info : Word) (s : State) : Result :=
  .next (s.setStatus (.halted cause info))

/-- The result `t` of an instruction whose accesses pass, or the fault of the first that does not. The information is
the offending address, 16 bits (R102; log 17). -/
def guarded (fault : Option (Cause × Nat)) (s t : State) : Result :=
  match fault with
  | some (c, a) => raise c (BitVec.ofNat 16 a) s
  | none => .next t

/-! ### Fetch (R36) -/

/-- `Fetch(pc)`: the two bytes at pc and pc + 1, big-endian, or the lowest address above 0xFFF. pc + 1 is the unbounded
sum (R35); no alignment (R38). -/
def fetch (s : State) : Except Nat Word :=
  match firstFault readCheck s.pc.toNat 2 with
  | some (_, a) => .error a
  | none => .ok (opcodeOfBytes (s.M.read s.pc.toNat) (s.M.read (s.pc.toNat + 1)))

/-! ### The call stack (R23) -/

/-- `Push(v)`: the new depth and entries, or `none` on a full stack. -/
def State.push (v : Word) (s : State) : Option State :=
  if h : s.SP.val < 16 then
    some (s.setStack ⟨s.SP.val + 1, by omega⟩ (s.S.set s.SP.val v))
  else none

/-- `Pop()`: the popped value and the state with one entry less, or `none` on an empty stack. The entry keeps its
contents. -/
def State.pop (s : State) : Option (Word × State) :=
  if h : 0 < s.SP.val then
    some (s.S[s.SP.val - 1]'(by omega), s.setStack ⟨s.SP.val - 1, by omega⟩ s.S)
  else none

/-! ### The framebuffer (R26, R64, R65) -/

/-- The framebuffer with every pixel 0. -/
def Framebuffer.clear : Framebuffer := Vector.replicate 64 (Vector.replicate 32 false)

/-- `FB[px][py]`. -/
def Framebuffer.pixel (fb : Framebuffer) (px : Fin 64) (py : Fin 32) : Bool := fb[px][py]

/-- `FB[px][py] <- FB[px][py] ^ 1`. -/
def Framebuffer.toggle (fb : Framebuffer) (px : Fin 64) (py : Fin 32) : Framebuffer :=
  fb.set px (fb[px].set py (!fb[px][py]))

/-- The framebuffer and the collision bit while a sprite is drawn. -/
abbrev Drawing := Framebuffer × Bool

/-- A sprite bit 1 meets pixel (px, py): a set pixel is a collision, the pixel is toggled. -/
def drawPixel (px : Fin 64) (py : Fin 32) (d : Drawing) : Drawing :=
  (d.1.toggle px py, d.2 || d.1.pixel px py)

/-- Column `c` of a sprite row: bit 7 - c, bit 7 the leftmost pixel; columns wrap modulo 64. -/
def drawColumn (row : Byte) (px0 : Nat) (py : Fin 32) (d : Drawing) (c : Nat) : Drawing :=
  if row.getLsbD (7 - c) then drawPixel (Fin.ofNat 64 (px0 + c)) py d else d

/-- The 8 columns of one sprite row. -/
def drawRow (row : Byte) (px0 : Nat) (py : Fin 32) (d : Drawing) : Drawing :=
  (List.range 8).foldl (drawColumn row px0 py) d

/-- The sprite rows from screen row `py0` on; rows wrap modulo 32. -/
def drawRows : List Byte → Nat → Nat → Drawing → Drawing
  | [], _, _, d => d
  | row :: rows, px0, py0, d => drawRows rows px0 (py0 + 1) (drawRow row px0 (Fin.ofNat 32 py0) d)

/-! ### The keypad (R27, R99) -/

/-- The set of pressed keys, as its rising list. -/
def State.pressedKeys (s : State) : List Key := (List.finRange 16).filter (fun k => s.K[k])

/-- `KEY_CHOICE(P)` for the set P of pressed keys, `none` for the empty set: some member of P, the only one where there
is one, else a free choice (R8, R99, D15; log 6). -/
def chooseKey : List Key → Option Key
  | [] => none
  | [k] => some k
  | k :: ks => some ((k :: ks)[Config.keyPick (k :: ks) % (k :: ks).length]'(Nat.mod_lt _ (by simp)))

end Sys2Proof.Machine
end

