-- ==== Sys2Proof/Machine/Operands.lean ====
section
/-!
DEFINITION. The operand forms (spec/30_encoding.md R54, R55) and the values computed from operands. Every operand is
unsigned and zero-extended.
-/
namespace Sys2Proof.Machine

/-- The register operand `V[x]` (R14); `V[0]` of Bnnn is `reg 0`. -/
def State.reg (s : State) (x : Reg) : Byte := s.V[x]

/-- `zext_16(nnn)` (R55). -/
def addrWord (nnn : Addr) : Word := nnn.setWidth 16

/-- `zext_16(b)` (R10). -/
def byteWord (b : Byte) : Word := b.setWidth 16

/-- The data address `I + k`, the unbounded sum (R35). -/
def State.dataAddr (s : State) (k : Nat) : Nat := s.I.toNat + k

/-- The key index in a register: `none` above 15 (R96, R97). -/
def keyOperand (b : Byte) : Option Key :=
  if h : b.toNat < 16 then some ⟨b.toNat, h⟩ else none

/-- The value of a key index in a register (R99). -/
def keyByte (k : Key) : Byte := BitVec.ofNat 8 k.val

/-- `GLYPH_BASE + 5 * V[x]`, not reduced (R92). -/
def glyphAddr (digit : Byte) : Word := BitVec.ofNat 16 (Config.glyphBase.val + 5 * digit.toNat)

/-- The three decimal digits of a byte: hundreds, tens, ones (R93). -/
def bcdDigits (v : Byte) : List Byte :=
  [BitVec.ofNat 8 (v.toNat / 100), BitVec.ofNat 8 (v.toNat / 10 % 10), BitVec.ofNat 8 (v.toNat % 10)]

/-- The registers `V[0] .. V[x]`, in order (R94). -/
def State.regBlock (s : State) (x : Reg) : List Byte := s.V.toList.take (x.val + 1)

/-- The sprite rows `M[I] .. M[I + n - 1]` (R65). -/
def State.spriteRows (s : State) (n : Nat) : List Byte := s.M.readBytes (s.dataAddr 0) n

/-- The registers after loading `V[0] .. V[x]` from `M[I] .. M[I + x]` (R95). -/
def State.loadedRegs (s : State) (x : Reg) : Vector Byte 16 :=
  Vector.ofFn (fun j : Fin 16 => if j ≤ x then s.M.read (s.dataAddr j.val) else s.V[j])

end Sys2Proof.Machine
end

