-- ==== Sys2Proof/Machine/Flags.lean ====
section
/-!
DEFINITION. The flag computations (spec/10_state.md R16, spec/42_arithmetic.md R76, R77). VF receives 1 or 0.
-/
namespace Sys2Proof.Machine

/-- The value of a flag in VF. -/
def flagByte (f : Bool) : Byte := if f then 1 else 0

/-- 8xy4: the unsigned sum exceeds 255 (R84). -/
def carry (a b : Byte) : Bool := decide (a.toNat + b.toNat > 255)

/-- 8xy5 and 8xy7: minuend at least the subtrahend (R85, R87). -/
def notBorrow (minuend subtrahend : Byte) : Bool := decide (minuend.toNat ≥ subtrahend.toNat)

/-- 8xy6: bit 0 before the shift (R86). -/
def shiftedOutRight (a : Byte) : Bool := a.getLsbD 0

/-- 8xyE: bit 7 before the shift (R88). -/
def shiftedOutLeft (a : Byte) : Bool := a.getLsbD 7

/-- `V[15] <- flag`. -/
def State.setFlag (f : Bool) (s : State) : State := s.setV VF (flagByte f)

/-- The result to V[x], then the flag to VF: with x = 0xF the flag stays (R77). -/
def State.setResultFlag (x : Reg) (result : Byte) (f : Bool) (s : State) : State :=
  (s.setV x result).setFlag f

end Sys2Proof.Machine
end

