-- ==== Sys2Proof/Machine/Arithmetic.lean ====
section
/-!
DEFINITION. Register arithmetic and logic: 6xkk, 7xkk, 8xy0-8xyE, Cxkk (spec/42_arithmetic.md).
-/
namespace Sys2Proof.Machine

/-- LD Vx, kk (R78). -/
def execLdByte (x : Reg) (kk : Byte) (s : State) : Result := .next (s.setV x kk).advance

/-- ADD Vx, kk (R79): modulo 256, no flag. -/
def execAddByte (x : Reg) (kk : Byte) (s : State) : Result := .next (s.setV x (s.reg x + kk)).advance

/-- LD Vx, Vy (R80). -/
def execLdReg (x y : Reg) (s : State) : Result := .next (s.setV x (s.reg y)).advance

/-- OR Vx, Vy (R81). -/
def execOrReg (x y : Reg) (s : State) : Result := .next (s.setV x (s.reg x ||| s.reg y)).advance

/-- AND Vx, Vy (R82). -/
def execAndReg (x y : Reg) (s : State) : Result := .next (s.setV x (s.reg x &&& s.reg y)).advance

/-- XOR Vx, Vy (R83). -/
def execXorReg (x y : Reg) (s : State) : Result := .next (s.setV x (s.reg x ^^^ s.reg y)).advance

/-- ADD Vx, Vy (R84): VF = carry. -/
def execAddReg (x y : Reg) (s : State) : Result :=
  .next (s.setResultFlag x (s.reg x + s.reg y) (carry (s.reg x) (s.reg y))).advance

/-- SUB Vx, Vy (R85): VF = not borrow. -/
def execSubReg (x y : Reg) (s : State) : Result :=
  .next (s.setResultFlag x (s.reg x - s.reg y) (notBorrow (s.reg x) (s.reg y))).advance

/-- SHR Vx (R86): VF = bit 0 before; `y` is not read. -/
def execShr (x _y : Reg) (s : State) : Result :=
  .next (s.setResultFlag x (s.reg x >>> 1) (shiftedOutRight (s.reg x))).advance

/-- SUBN Vx, Vy (R87): VF = not borrow. -/
def execSubnReg (x y : Reg) (s : State) : Result :=
  .next (s.setResultFlag x (s.reg y - s.reg x) (notBorrow (s.reg y) (s.reg x))).advance

/-- SHL Vx (R88): VF = bit 7 before; `y` is not read. -/
def execShl (x _y : Reg) (s : State) : Result :=
  .next (s.setResultFlag x (s.reg x <<< 1) (shiftedOutLeft (s.reg x))).advance

/-- RND Vx, kk (R89): the draw of this OP_CYCLE, masked. -/
def execRnd (x : Reg) (kk : Byte) (s : State) : Result := .next (s.setV x (s.env.rnd &&& kk)).advance

end Sys2Proof.Machine
end

