-- ==== Sys2Proof/Machine/ControlFlow.lean ====
section
/-!
DEFINITION. Control transfer: 00EE, 1nnn, 2nnn, 3xkk, 4xkk, 5xy0, 9xy0, Bnnn (spec/41_control_flow.md).
-/
namespace Sys2Proof.Machine

/-- RET (R68): `pc <- Pop()`; STACK_UNDERFLOW(pc) on an empty stack. -/
def execRet (s : State) : Result :=
  match s.pop with
  | some (target, t) => .next (t.setPC target)
  | none => raise .stackUnderflow s.pc s

/-- JP nnn (R69). -/
def execJp (nnn : Addr) (s : State) : Result := .next (s.setPC (addrWord nnn))

/-- CALL nnn (R70): `Push(pc + 2)`, then jump; STACK_OVERFLOW(pc) on a full stack. -/
def execCall (nnn : Addr) (s : State) : Result :=
  match s.push (s.pc + 2) with
  | some t => .next (t.setPC (addrWord nnn))
  | none => raise .stackOverflow s.pc s

/-- SE Vx, kk (R71). -/
def execSeByte (x : Reg) (kk : Byte) (s : State) : Result := .next (s.skipIf (s.reg x == kk))

/-- SNE Vx, kk (R72). -/
def execSneByte (x : Reg) (kk : Byte) (s : State) : Result := .next (s.skipIf (s.reg x != kk))

/-- SE Vx, Vy (R73). -/
def execSeReg (x y : Reg) (s : State) : Result := .next (s.skipIf (s.reg x == s.reg y))

/-- SNE Vx, Vy (R74). -/
def execSneReg (x y : Reg) (s : State) : Result := .next (s.skipIf (s.reg x != s.reg y))

/-- JP V0, nnn (R75): the sum is not reduced to 12 bits. -/
def execJpV0 (nnn : Addr) (s : State) : Result := .next (s.setPC (addrWord nnn + byteWord (s.reg 0)))

end Sys2Proof.Machine
end

