-- ==== Sys2Proof/Machine/Display.lean ====
section
/-!
DEFINITION. Display instructions: 00E0 and Dxyn (spec/40_display.md).
-/
namespace Sys2Proof.Machine

/-- CLS (R64): every pixel 0, `dirty` 1. -/
def execCls (s : State) : Result :=
  .next ((s.setFB Framebuffer.clear).setDirty true).advance

/-- The screen after the `n`-row sprite at I is drawn at (V[x], V[y]), and whether a set pixel met a sprite bit. The
coordinates and the rows are those before the instruction (R65, D8). -/
def drawn (x y : Reg) (n : Fin 16) (s : State) : Drawing :=
  drawRows (s.spriteRows n.val) (s.reg x).toNat (s.reg y).toNat (s.FB, false)

/-- DRW Vx, Vy, n (R65): reads I .. I + n - 1, draws, VF the collision, `dirty` 1 always. -/
def execDrw (x y : Reg) (n : Fin 16) (s : State) : Result :=
  guarded (firstFault readCheck (s.dataAddr 0) n.val) s
    (((s.setFB (drawn x y n s).1).setFlag (drawn x y n s).2).setDirty true).advance

end Sys2Proof.Machine
end

