-- ==== Sys2Proof/Machine/IndexMemory.lean ====
section
/-!
DEFINITION. Index register and memory transfer: Annn, Fx1E, Fx29, Fx33, Fx55, Fx65 (spec/43_index_memory.md). The
accesses are checked before anything is written (spec/20_memory.md R41, R44, R45).
-/
namespace Sys2Proof.Machine

/-- LD I, nnn (R90). -/
def execLdI (nnn : Addr) (s : State) : Result := .next (s.setI (addrWord nnn)).advance

/-- ADD I, Vx (R91): modulo 65536, VF unchanged. -/
def execAddI (x : Reg) (s : State) : Result := .next (s.setI (s.I + byteWord (s.reg x))).advance

/-- LD F, Vx (R92). -/
def execLdF (x : Reg) (s : State) : Result := .next (s.setI (glyphAddr (s.reg x))).advance

/-- The bytes `bs` stored at I, I + 1, ...: the shape of Fx33 and Fx55, I unchanged. -/
def storeAtI (bs : List Byte) (s : State) : Result :=
  guarded (firstFault writeCheck (s.dataAddr 0) bs.length) s
    (s.setM (s.M.writeBytes (s.dataAddr 0) bs)).advance

/-- LD B, Vx (R93): hundreds, tens, ones. -/
def execLdB (x : Reg) (s : State) : Result := storeAtI (bcdDigits (s.reg x)) s

/-- LD [I], Vx (R94): V[0] .. V[x]. -/
def execStoreRegs (x : Reg) (s : State) : Result := storeAtI (s.regBlock x) s

/-- LD Vx, [I] (R95): V[0] .. V[x] from I .. I + x. -/
def execLoadRegs (x : Reg) (s : State) : Result :=
  guarded (firstFault readCheck (s.dataAddr 0) (x.val + 1)) s (s.setRegs (s.loadedRegs x)).advance

end Sys2Proof.Machine
end

