-- ==== Sys2Proof/Machine/KeypadTimers.lean ====
section
/-!
DEFINITION. Keypad and timer instructions: Ex9E, ExA1, Fx07, Fx0A, Fx15, Fx18 (spec/44_keypad_timers.md).
-/
namespace Sys2Proof.Machine

/-- A skip on the state of the key that V[x] names: skip when `K[k] = want`; KEY_RANGE(V[x]) above 15 (R96, R97). -/
def skipOnKey (want : Bool) (x : Reg) (s : State) : Result :=
  match keyOperand (s.reg x) with
  | some k => .next (s.skipIf (s.K[k] == want))
  | none => raise .keyRange (byteWord (s.reg x)) s

/-- SKP Vx (R96). -/
def execSkp (x : Reg) (s : State) : Result := skipOnKey true x s

/-- SKNP Vx (R97). -/
def execSknp (x : Reg) (s : State) : Result := skipOnKey false x s

/-- LD Vx, DT (R98). -/
def execLdVxDT (x : Reg) (s : State) : Result := .next (s.setV x s.DT).advance

/-- LD Vx, K (R99): with no key pressed nothing changes, pc included; else the chosen key, a level test. -/
def execLdVxK (x : Reg) (s : State) : Result :=
  match chooseKey s.pressedKeys with
  | some k => .next (s.setV x (keyByte k)).advance
  | none => .next s

/-- LD DT, Vx (R100). -/
def execLdDTVx (x : Reg) (s : State) : Result := .next (s.setDT (s.reg x)).advance

/-- LD ST, Vx (R101). -/
def execLdSTVx (x : Reg) (s : State) : Result := .next (s.setST (s.reg x)).advance

end Sys2Proof.Machine
end

