-- ==== Sys2Proof/Machine/Interface.lean ====
section
/-!
DEFINITION. The interface operations of the block (spec/10_state.md R31): OP_CREATE, OP_CYCLE, OP_TICK, the keypad and
the display, each one indivisible step on the whole state (spec/20_memory.md R47); what each returns; and which
operation comes next.
-/
namespace Sys2Proof.Machine

/-! ### OP_CYCLE (R61) -/

/-- Fetch, decode, execute: the transaction of R61. A fetch fault comes before a decode fault, and both before the
instruction's own (R105). -/
def runInstruction (s : State) : Result :=
  match fetch s with
  | .error a => raise .addressRange (BitVec.ofNat 16 a) s
  | .ok op =>
    match decode op with
    | .error _ => raise .invalidInstruction op s
    | .ok i => exec i s

/-- The byte `rnd` of an OP_CYCLE, where the instruction finds it (log 2). -/
def State.withRnd (rnd : Byte) (s : State) : State := s.setEnv { s.env with rnd := rnd }

/-- OP_CYCLE(rnd): a halted block changes nothing (R61, R106). -/
def opCycle (rnd : Byte) (s : State) : Result :=
  match s.status with
  | .running => runInstruction (s.withRnd rnd)
  | .halted _ _ => .next s

/-! ### OP_CREATE (R120) -/

/-- The state after a ROM is loaded: every state element at its reset value (R33), the ROM at 0x200. The environment's
fields are no state of the block and stay (log 11). -/
def created (rom : List Byte) (e : Env) : State :=
  (State.reset.setM (Memory.writeBytes [] 0x200 rom)).setEnv e

/-- OP_CREATE(rom), the only reset and the only way out of a halt (R106, R120). A ROM above 3584 bytes is LOAD_ERROR:
nothing is written, the model refuses (log 12). -/
def opCreate (rom : List Byte) (s : State) : Result :=
  if rom.length > maxRomSize then .refused (.loadError rom.length) else .next (created rom s.env)

/-! ### Timers, keypad, display (R112-R116) -/

/-- One timer down by one, floor zero. -/
def timerDown (t : Byte) : Byte := if t.toNat > 0 then t - 1 else t

/-- OP_TICK (R112). -/
def opTick (s : State) : State := (s.setDT (timerDown s.DT)).setST (timerDown s.ST)

/-- OP_PRESS(k) and OP_RELEASE(k) (R115): an index above 15 is INPUT_CONTRACT, which the model refuses (log 12). -/
def opKey (pressed : Bool) (k : Nat) (s : State) : Result :=
  if h : k < 16 then .next (s.setKey ⟨k, h⟩ pressed) else .refused (.inputContract k)

/-- OP_CLEAR_DIRTY (R116). -/
def opClearDirty (s : State) : State := s.setDirty false

/-- What OP_READ_DISPLAY returns: the pair, read in one step (R49, R116). -/
def State.display (s : State) : Framebuffer × Bool := (s.FB, s.dirty)

/-- The output `sound_on` (R113). -/
def State.soundOn (s : State) : Bool := decide (s.ST ≠ 0)

/-! ### An operation's effect and its result (R31) -/

/-- The effect of an operation. They are the same whether the block runs or is halted, but for OP_CYCLE (R107). -/
def perform : Op → State → Result
  | .create rom, s => opCreate rom s
  | .cycle rnd, s => opCycle rnd s
  | .tick, s => .next (opTick s)
  | .press k, s => opKey true k s
  | .release k, s => opKey false k s
  | .readDisplay, s => .next s
  | .clearDirty, s => .next (opClearDirty s)

/-- What an operation returns to its caller. -/
inductive OpResult where
  /-- `OK`, or nothing. -/
  | ok
  /-- `FAULT(cause, info)`: this OP_CYCLE raised the fault (R103). -/
  | fault (cause : Cause) (info : Word)
  /-- `HALTED(cause, info)`: the block was halted already (R106). -/
  | halted (cause : Cause) (info : Word)
  /-- The pair of OP_READ_DISPLAY (R116). -/
  | display (fb : Framebuffer) (dirty : Bool)
  /-- LOAD_ERROR and INPUT_CONTRACT (R109): the operations a model refuses. -/
  | refused (why : Refusal)
deriving DecidableEq, Repr

/-- The result of an outcome other than OP_READ_DISPLAY's and that of a halted block: OK, or the fault of a block that
has just halted. -/
def resultOfOutcome (cycle : Bool) : Result → OpResult
  | .next t =>
    match cycle, t.status with
    | true, .halted c info => .fault c info
    | _, _ => .ok
  | .fault r => nomatch r
  | .refused r => .refused r

/-- The value an operation returns in state `s`. -/
def resultOf (op : Op) (s : State) : OpResult :=
  match op, s.status with
  | .readDisplay, _ => .display s.display.1 s.display.2
  | .cycle _, .halted c info => .halted c info
  | .cycle rnd, .running => resultOfOutcome true (perform (.cycle rnd) s)
  | op, _ => resultOfOutcome false (perform op s)

/-- The operations of a list, one after another in their order (R47, R48, R127), up to the first refused one. -/
def performAll : List Op → State → Result
  | [], s => .next s
  | op :: ops, s =>
    match perform op s with
    | .next t => performAll ops t
    | .fault r => .fault r
    | .refused r => .refused r

/-- An operation on a block that may not exist yet: before the first successful OP_CREATE every other operation is
refused (R120, D32; log 21). -/
def performBlock (op : Op) : Option State → Result
  | some s => perform op s
  | none =>
    match op with
    | .create rom => opCreate rom State.reset
    | _ => .refused .noBlock

/-! ### The next operation (R47; log 1) -/

/-- The state in which the next operation of the environment is taken from its list. -/
def State.withPending (ops : List Op) (s : State) : State := s.setEnv { s.env with pending := ops }

/-- The state with one free draw taken (log 2). -/
def State.takeDraw (s : State) : State := s.setEnv { s.env with draws := s.env.draws + 1 }

/-- One step: the operation the environment has chosen, or, where it has chosen none, OP_CYCLE with a free draw. A halted
block's OP_CYCLE takes no draw: nothing at all changes (R106). -/
def nextOperation (s : State) : Result :=
  match s.env.pending with
  | op :: ops => perform op (s.withPending ops)
  | [] =>
    match s.status with
    | .running => opCycle (Config.rndDraw s.env.draws) s.takeDraw
    | .halted _ _ => .next s

/-! ### Placing an instruction where the next step fetches it (log 16) -/

/-- The address the next fetch reads, where it can be fetched; else the entry point (R121). -/
def fetchable (pc : Word) : Word := if pc.toNat ≤ 0xFFE then pc else 0x200

/-- The word `op` at the pc, the block running, no other operation before it. -/
def State.withOpcode (op : Word) (s : State) : State :=
  (((s.setPC (fetchable s.pc)).setM (s.M.writeBytes (fetchable s.pc).toNat (bytesOfWord op))).setStatus .running).withPending
    []

end Sys2Proof.Machine
end

