-- ==== Sys2Proof/Machine/Step.lean ====
section
/-!
DEFINITION. One step of the machine: the next interface operation (spec/20_memory.md R47).
-/
namespace Sys2Proof.Machine

/-- One step: `Sys2Proof.Machine.nextOperation`. -/
def step (s : State) : Host.Outcome State Fault Refusal := Sys2Proof.Machine.nextOperation s

/-- `s` with the instruction whose bits are `w` stored where the next step fetches. -/
def State.withFetchWord (s : State) (nbits w : Nat) : State := s.withOpcode (tableWord nbits w)

end Sys2Proof.Machine
end

