-- ==== Sys2Proof/Safety.lean ====
section
/-!
DEFINITION. What claims say about states and runs: the invariant of the machine, the states a run reaches, runs without
a fault, and what one state keeps of another.
-/
namespace Sys2Proof.Machine

/-! ### The invariant -/

/-- Every pc written is at most 0x10FE (R21, R62). -/
def State.PcBounded (s : State) : Prop := s.pc.toNat ≤ 0x10FE

/-- Every stack entry is a return address pc + 2 of a fetched CALL, or 0: at most 0x1000 (R70). -/
def State.StackBounded (s : State) : Prop := ∀ j : Fin 16, s.S[j].toNat ≤ 0x1000

/-- Every listed byte lies in the program region 0x200..0xFFF (R42, R44). -/
def Memory.InProgramRegion (m : Memory) : Prop := ∀ c ∈ m, 0x200 ≤ c.1 ∧ c.1 ≤ 0xFFF

/-- What holds after OP_CREATE and is kept by every step. -/
structure State.Inv (s : State) : Prop where
  /-- The pc is bounded. -/
  pc : s.PcBounded
  /-- So are the stack entries. -/
  stack : s.StackBounded
  /-- Memory keeps its canonical form. -/
  canonical : s.M.wf = true
  /-- Memory lists nothing outside the program region. -/
  region : s.M.InProgramRegion

/-! ### Runs -/

/-- The states of a run: a successful OP_CREATE of any ROM that fits, under any choice of later operations by the
environment, then steps (R127). -/
inductive Reachable : State → Prop where
  /-- The run's first operation (R120, R127). -/
  | created (rom : List Byte) (e : Env) : rom.length ≤ maxRomSize → Reachable (created rom e)
  /-- One more operation. -/
  | step (s t : State) : Reachable s → step s = .next t → Reachable t

/-- The first `n` steps from `s` all answer a next state with the block running: a run without a fault and without a
refused operation. -/
def RunsWithoutFault : Nat → State → Prop
  | 0, s => s.status = .running
  | n + 1, s => s.status = .running ∧ ∃ t, step s = .next t ∧ RunsWithoutFault n t

/-! ### What one state keeps of another -/

/-- Every byte of memory reads as before. -/
def SameBytes (s t : State) : Prop := ∀ a, t.M.read a = s.M.read a

/-- Every byte of memory outside the `n` addresses from `a` on reads as before. -/
def SameBytesOutside (a n : Nat) (s t : State) : Prop :=
  ∀ a', ¬(a ≤ a' ∧ a' < a + n) → t.M.read a' = s.M.read a'

/-- Every general register but those in `touched` is as before. -/
def SameRegsBut (touched : List Reg) (s t : State) : Prop := ∀ r, r ∉ touched → t.V[r] = s.V[r]

/-- The general registers and pc apart, everything is as before. -/
def OnlyRegsAndPc (s t : State) : Prop := t = { s with V := t.V, pc := t.pc } ∧ SameBytes s t

/-- `pc` apart, everything is as before. -/
def OnlyPc (s t : State) : Prop := t = { s with pc := t.pc } ∧ SameBytes s t

/-- `I` and pc apart, everything is as before. -/
def OnlyIndexAndPc (s t : State) : Prop := t = { s with I := t.I, pc := t.pc } ∧ SameBytes s t

/-- The call stack and pc apart, everything is as before. -/
def OnlyStackAndPc (s t : State) : Prop := t = { s with SP := t.SP, S := t.S, pc := t.pc } ∧ SameBytes s t

/-- The framebuffer, VF, the dirty flag and pc apart, everything is as before. -/
def OnlyDisplayAndPc (s t : State) : Prop :=
  t = { s with V := t.V, FB := t.FB, dirty := t.dirty, pc := t.pc } ∧ SameRegsBut [VF] s t ∧ SameBytes s t

/-- Memory and pc apart, everything is as before. -/
def OnlyMemoryAndPc (s t : State) : Prop := t = { s with M := t.M, pc := t.pc }

/-- The fault `cause` with `info` is all that happened: `status` is halted, everything else is as before (R103, R104). -/
def FaultOnly (cause : Cause) (info : Word) (s t : State) : Prop :=
  t = { s with status := .halted cause info } ∧ SameBytes s t

/-- The result of a step with its next state changed by `f`; to say that a step commutes with a change of state. -/
def mapNext (f : State → State) : Result → Result
  | .next t => .next (f t)
  | .fault r => .fault r
  | .refused r => .refused r

/-- Two states that differ in nothing but stack entries not in use (R23: no instruction can observe them). -/
def SameButDeadEntries (s t : State) : Prop :=
  t = { s with S := t.S } ∧ ∀ j : Fin 16, j.val < s.SP.val → t.S[j] = s.S[j]

/-! ### What an opcode names -/

/-- Every word that agrees with `pattern` under `mask` decodes to what `build` makes of it. -/
def HasPattern (mask pattern : Word) (build : Word → Instr) : Prop :=
  ∀ op : Word, op &&& mask = pattern → decode op = .ok (build op)

/-- The invalid words of R58, by the values of the word's nibbles and low byte. -/
def InvalidWord (op : Word) : Prop :=
  let h := op.toNat / 4096
  let f := op.toNat % 16
  let kk := op.toNat % 256
  (h = 0x0 ∧ op ≠ 0x00E0 ∧ op ≠ 0x00EE) ∨ (h = 0x5 ∧ f ≠ 0) ∨ (h = 0x9 ∧ f ≠ 0) ∨
    (h = 0x8 ∧ f ∈ [0x8, 0x9, 0xA, 0xB, 0xC, 0xD, 0xF]) ∨ (h = 0xE ∧ kk ∉ [0x9E, 0xA1]) ∨
    (h = 0xF ∧ kk ∉ [0x07, 0x0A, 0x15, 0x18, 0x1E, 0x29, 0x33, 0x55, 0x65])

/-- Pixel (px, py) meets a 1 bit of the `n`-row sprite at I drawn at (V[x], V[y]): bit 7 - c of row r, wrapped onto the
screen (R65). -/
def SpriteMeets (s : State) (x y : Reg) (n : Nat) (px : Fin 64) (py : Fin 32) : Prop :=
  ∃ r c, r < n ∧ c < 8 ∧ (s.M.read (s.I.toNat + r)).getLsbD (7 - c) = true ∧
    (s.V[x].toNat + c) % 64 = px.val ∧ (s.V[y].toNat + r) % 32 = py.val

/-- The instruction has VF among the registers its `x` and `y` fields name, or in the block V0..Vx; the ignored `y` of a
shift names nothing (R15, R54). -/
def NamesVF : Instr → Prop
  | .cls | .ret | .jp _ | .call _ | .ldI _ | .jpV0 _ => False
  | .seByte x _ | .sneByte x _ | .ldByte x _ | .addByte x _ | .rnd x _ => x = VF
  | .seReg x y | .sneReg x y | .ldReg x y | .orReg x y | .andReg x y | .xorReg x y => x = VF ∨ y = VF
  | .addReg x y | .subReg x y | .subnReg x y => x = VF ∨ y = VF
  | .shr x _ | .shl x _ => x = VF
  | .drw x y _ => x = VF ∨ y = VF
  | .skp x | .sknp x | .ldVxDT x | .ldVxK x | .ldDTVx x | .ldSTVx x => x = VF
  | .addI x | .ldF x | .ldB x | .storeRegs x | .loadRegs x => x = VF

end Sys2Proof.Machine
end

