-- ==== Sys2Proof/Certificates/Slice0/Obligations.lean ====
section
/-!
DEFINITION. The statements for the provers. Each docstring names the rules of spec/ it formalises. `HasPattern` says which
words encode the instruction; `OnlyRegsAndPc` and its like say what is left unchanged, memory byte by byte.
-/
open Sys2Proof Sys2Proof.Machine

/-! ### The instructions, family by family -/

/-- R78, R79: 6xkk loads the literal, 7xkk adds it modulo 256; no flag. -/
def Obligations.LiteralLoadAndAdd : Prop :=
  HasPattern 0xF000 0x6000 (fun op => .ldByte (fieldX op) (fieldKK op)) ∧
  HasPattern 0xF000 0x7000 (fun op => .addByte (fieldX op) (fieldKK op)) ∧
  ∀ (x : Reg) (kk : Byte) (s : State),
    (∃ t, exec (.ldByte x kk) s = .next t ∧ t.V[x] = kk ∧ t.pc = s.pc + 2 ∧ SameRegsBut [x] s t ∧ OnlyRegsAndPc s t) ∧
    (∃ t, exec (.addByte x kk) s = .next t ∧ t.V[x].toNat = (s.V[x].toNat + kk.toNat) % 256 ∧ t.pc = s.pc + 2 ∧
      SameRegsBut [x] s t ∧ OnlyRegsAndPc s t)

/-- R80-R83: copy and the three bitwise operations, bit by bit; no flag. -/
def Obligations.CopyAndBitwise : Prop :=
  HasPattern 0xF00F 0x8000 (fun op => .ldReg (fieldX op) (fieldY op)) ∧
  HasPattern 0xF00F 0x8001 (fun op => .orReg (fieldX op) (fieldY op)) ∧
  HasPattern 0xF00F 0x8002 (fun op => .andReg (fieldX op) (fieldY op)) ∧
  HasPattern 0xF00F 0x8003 (fun op => .xorReg (fieldX op) (fieldY op)) ∧
  ∀ (x y : Reg) (s : State),
    (∃ t, exec (.ldReg x y) s = .next t ∧ t.V[x] = s.V[y] ∧ t.pc = s.pc + 2 ∧ SameRegsBut [x] s t ∧
      OnlyRegsAndPc s t) ∧
    (∃ t, exec (.orReg x y) s = .next t ∧
      (∀ b, t.V[x].getLsbD b = (s.V[x].getLsbD b || s.V[y].getLsbD b)) ∧ t.pc = s.pc + 2 ∧ SameRegsBut [x] s t ∧
      OnlyRegsAndPc s t) ∧
    (∃ t, exec (.andReg x y) s = .next t ∧
      (∀ b, t.V[x].getLsbD b = (s.V[x].getLsbD b && s.V[y].getLsbD b)) ∧ t.pc = s.pc + 2 ∧ SameRegsBut [x] s t ∧
      OnlyRegsAndPc s t) ∧
    (∃ t, exec (.xorReg x y) s = .next t ∧
      (∀ b, t.V[x].getLsbD b = (s.V[x].getLsbD b ^^ s.V[y].getLsbD b)) ∧ t.pc = s.pc + 2 ∧ SameRegsBut [x] s t ∧
      OnlyRegsAndPc s t)

/-- R84: 8xy4 adds modulo 256, VF the carry, written last. -/
def Obligations.AddWithCarry : Prop :=
  HasPattern 0xF00F 0x8004 (fun op => .addReg (fieldX op) (fieldY op)) ∧
  ∀ (x y : Reg) (s : State), ∃ t, exec (.addReg x y) s = .next t ∧
    (x ≠ VF → t.V[x].toNat = (s.V[x].toNat + s.V[y].toNat) % 256) ∧
    t.V[VF] = (if s.V[x].toNat + s.V[y].toNat > 255 then 1 else 0) ∧ t.pc = s.pc + 2 ∧ SameRegsBut [x, VF] s t ∧
    OnlyRegsAndPc s t

/-- R85, R87: 8xy5 and 8xy7 subtract modulo 256, VF 1 exactly when there is no borrow, written last. -/
def Obligations.SubtractBothWays : Prop :=
  HasPattern 0xF00F 0x8005 (fun op => .subReg (fieldX op) (fieldY op)) ∧
  HasPattern 0xF00F 0x8007 (fun op => .subnReg (fieldX op) (fieldY op)) ∧
  ∀ (x y : Reg) (s : State),
    (∃ t, exec (.subReg x y) s = .next t ∧
      (x ≠ VF → t.V[x].toNat = (s.V[x].toNat + 256 - s.V[y].toNat) % 256) ∧
      t.V[VF] = (if s.V[x].toNat ≥ s.V[y].toNat then 1 else 0) ∧ t.pc = s.pc + 2 ∧ SameRegsBut [x, VF] s t ∧
      OnlyRegsAndPc s t) ∧
    (∃ t, exec (.subnReg x y) s = .next t ∧
      (x ≠ VF → t.V[x].toNat = (s.V[y].toNat + 256 - s.V[x].toNat) % 256) ∧
      t.V[VF] = (if s.V[y].toNat ≥ s.V[x].toNat then 1 else 0) ∧ t.pc = s.pc + 2 ∧ SameRegsBut [x, VF] s t ∧
      OnlyRegsAndPc s t)

/-- R86, R88: the one-bit shifts, VF the bit shifted out, written last; any `y` selects the instruction. -/
def Obligations.ShiftsByOne : Prop :=
  HasPattern 0xF00F 0x8006 (fun op => .shr (fieldX op) (fieldY op)) ∧
  HasPattern 0xF00F 0x800E (fun op => .shl (fieldX op) (fieldY op)) ∧
  ∀ (x y : Reg) (s : State),
    (∃ t, exec (.shr x y) s = .next t ∧ (x ≠ VF → t.V[x].toNat = s.V[x].toNat / 2) ∧
      t.V[VF].toNat = s.V[x].toNat % 2 ∧ t.pc = s.pc + 2 ∧ SameRegsBut [x, VF] s t ∧ OnlyRegsAndPc s t) ∧
    (∃ t, exec (.shl x y) s = .next t ∧ (x ≠ VF → t.V[x].toNat = 2 * s.V[x].toNat % 256) ∧
      t.V[VF].toNat = s.V[x].toNat / 128 ∧ t.pc = s.pc + 2 ∧ SameRegsBut [x, VF] s t ∧ OnlyRegsAndPc s t)

/-- R77 (the spec's decisions D8 and D9): in the five flag-writing operations with x = 0xF VF ends as the flag of the operands before the instruction, and
with y = 0xF the operand is VF's old value (the shifts read no second operand). -/
def Obligations.FlagWinsOverResult : Prop :=
  ∀ (x y : Reg) (s : State),
    (∃ t, exec (.addReg VF y) s = .next t ∧ t.V[VF] = (if s.V[VF].toNat + s.V[y].toNat > 255 then 1 else 0)) ∧
    (∃ t, exec (.subReg VF y) s = .next t ∧ t.V[VF] = (if s.V[VF].toNat ≥ s.V[y].toNat then 1 else 0)) ∧
    (∃ t, exec (.subnReg VF y) s = .next t ∧ t.V[VF] = (if s.V[y].toNat ≥ s.V[VF].toNat then 1 else 0)) ∧
    (∃ t, exec (.shr VF y) s = .next t ∧ t.V[VF].toNat = s.V[VF].toNat % 2) ∧
    (∃ t, exec (.shl VF y) s = .next t ∧ t.V[VF].toNat = s.V[VF].toNat / 128) ∧
    (x ≠ VF →
      (∃ t, exec (.addReg x VF) s = .next t ∧ t.V[x].toNat = (s.V[x].toNat + s.V[VF].toNat) % 256) ∧
      (∃ t, exec (.subReg x VF) s = .next t ∧ t.V[x].toNat = (s.V[x].toNat + 256 - s.V[VF].toNat) % 256) ∧
      (∃ t, exec (.subnReg x VF) s = .next t ∧ t.V[x].toNat = (s.V[VF].toNat + 256 - s.V[x].toNat) % 256))

/-- R89: Cxkk masks the byte `rnd` of its OP_CYCLE, for every `rnd`; no flag. -/
def Obligations.RandomByteMasked : Prop :=
  HasPattern 0xF000 0xC000 (fun op => .rnd (fieldX op) (fieldKK op)) ∧
  ∀ (x : Reg) (kk rnd : Byte) (s : State), ∃ t, exec (.rnd x kk) (s.withRnd rnd) = .next t ∧
    (∀ b, t.V[x].getLsbD b = (rnd.getLsbD b && kk.getLsbD b)) ∧ t.pc = s.pc + 2 ∧ SameRegsBut [x] s t ∧
    OnlyRegsAndPc (s.withRnd rnd) t

/-- R71-R74: the four skips on registers and literals; the words 5xyN and 9xyN with N not 0 are invalid. -/
def Obligations.SkipsOnRegisters : Prop :=
  HasPattern 0xF000 0x3000 (fun op => .seByte (fieldX op) (fieldKK op)) ∧
  HasPattern 0xF000 0x4000 (fun op => .sneByte (fieldX op) (fieldKK op)) ∧
  HasPattern 0xF00F 0x5000 (fun op => .seReg (fieldX op) (fieldY op)) ∧
  HasPattern 0xF00F 0x9000 (fun op => .sneReg (fieldX op) (fieldY op)) ∧
  (∀ op : Word, op.toNat / 4096 ∈ [0x5, 0x9] → op.toNat % 16 ≠ 0 → decode op = .error (.invalidInstruction op)) ∧
  ∀ (x y : Reg) (kk : Byte) (s : State),
    (∃ t, exec (.seByte x kk) s = .next t ∧ OnlyPc s t ∧ (s.V[x].toNat = kk.toNat → t.pc = s.pc + 4) ∧
      (s.V[x].toNat ≠ kk.toNat → t.pc = s.pc + 2)) ∧
    (∃ t, exec (.sneByte x kk) s = .next t ∧ OnlyPc s t ∧ (s.V[x].toNat ≠ kk.toNat → t.pc = s.pc + 4) ∧
      (s.V[x].toNat = kk.toNat → t.pc = s.pc + 2)) ∧
    (∃ t, exec (.seReg x y) s = .next t ∧ OnlyPc s t ∧ (s.V[x].toNat = s.V[y].toNat → t.pc = s.pc + 4) ∧
      (s.V[x].toNat ≠ s.V[y].toNat → t.pc = s.pc + 2)) ∧
    (∃ t, exec (.sneReg x y) s = .next t ∧ OnlyPc s t ∧ (s.V[x].toNat ≠ s.V[y].toNat → t.pc = s.pc + 4) ∧
      (s.V[x].toNat = s.V[y].toNat → t.pc = s.pc + 2))

/-- R69, R75: the jumps. JP V0 adds V0 without wrapping, at most 0x10FE (the spec's decision D30). A jump to itself changes nothing. -/
def Obligations.Jumps : Prop :=
  HasPattern 0xF000 0x1000 (fun op => .jp (fieldNNN op)) ∧
  HasPattern 0xF000 0xB000 (fun op => .jpV0 (fieldNNN op)) ∧
  ∀ (nnn : Addr) (s : State),
    (∃ t, exec (.jp nnn) s = .next t ∧ t.pc.toNat = nnn.toNat ∧ OnlyPc s t ∧ (s.pc.toNat = nnn.toNat → t = s)) ∧
    (∃ t, exec (.jpV0 nnn) s = .next t ∧ t.pc.toNat = nnn.toNat + s.V[0].toNat ∧ t.pc.toNat ≤ 0x10FE ∧ OnlyPc s t)

/-- R70: CALL pushes pc + 2 and jumps; on a full stack it is STACK_OVERFLOW(pc) and nothing else. -/
def Obligations.CallPushesAndJumps : Prop :=
  HasPattern 0xF000 0x2000 (fun op => .call (fieldNNN op)) ∧
  ∀ (nnn : Addr) (s : State),
    (∀ h : s.SP.val < 16, ∃ t, exec (.call nnn) s = .next t ∧ t.SP.val = s.SP.val + 1 ∧
      t.S[s.SP.val] = s.pc + 2 ∧ (∀ j : Fin 16, j.val ≠ s.SP.val → t.S[j] = s.S[j]) ∧ t.pc.toNat = nnn.toNat ∧
      OnlyStackAndPc s t) ∧
    (s.SP.val = 16 → ∃ t, exec (.call nnn) s = .next t ∧ FaultOnly .stackOverflow s.pc s t)

/-- R68: RET pops into pc and leaves the entry; on an empty stack it is STACK_UNDERFLOW(pc) and nothing else. -/
def Obligations.ReturnPops : Prop :=
  decode 0x00EE = .ok .ret ∧
  ∀ s : State,
    (∀ h : 0 < s.SP.val, ∃ t, exec .ret s = .next t ∧ t.pc = s.S[s.SP.val - 1]'(by omega) ∧
      t.SP.val = s.SP.val - 1 ∧ t.S = s.S ∧ OnlyStackAndPc s t) ∧
    (s.SP.val = 0 → ∃ t, exec .ret s = .next t ∧ FaultOnly .stackUnderflow s.pc s t)

/-- R70 and R68 together (S5): a CALL that does not overflow and the RET of its callee, wherever that RET stands, come back
to the instruction after the CALL with the stack as deep as before and its entries in use as before. -/
def Obligations.CallThenReturnComesBack : Prop :=
  ∀ (nnn : Addr) (s : State) (retAt : Word), s.SP.val < 16 →
    ∃ t u, exec (.call nnn) s = .next t ∧ exec .ret (t.setPC retAt) = .next u ∧ u.pc = s.pc + 2 ∧ u.SP = s.SP ∧
      ∀ j : Fin 16, j.val < s.SP.val → u.S[j] = s.S[j]

/-- R64: CLS clears every pixel and sets the dirty flag (the spec's decision D14); VF is unchanged. -/
def Obligations.ClearScreen : Prop :=
  decode 0x00E0 = .ok .cls ∧
  ∀ s : State, ∃ t, exec .cls s = .next t ∧ (∀ px py, t.FB.pixel px py = false) ∧ t.dirty = true ∧ t.pc = s.pc + 2 ∧
    t.V = s.V ∧ OnlyDisplayAndPc s t

/-- R65: DRW toggles exactly the pixels that a sprite bit 1 meets, VF says whether one of them was set, the dirty flag is
set; a row above 0xFFF is ADDRESS_RANGE of the lowest such address and nothing else. (n = 0 and bit 7 leftmost are the spec's
decisions D12 and D13.) -/
def Obligations.DrawSprite : Prop :=
  HasPattern 0xF000 0xD000 (fun op => .drw (fieldX op) (fieldY op) (fieldN op)) ∧
  ∀ (x y : Reg) (n : Fin 16) (s : State),
    (n.val = 0 ∨ s.I.toNat + n.val ≤ 0x1000 → ∃ t, exec (.drw x y n) s = .next t ∧
      (∀ px py, (SpriteMeets s x y n.val px py → t.FB.pixel px py = !s.FB.pixel px py) ∧
        (¬SpriteMeets s x y n.val px py → t.FB.pixel px py = s.FB.pixel px py)) ∧
      ((∃ px py, SpriteMeets s x y n.val px py ∧ s.FB.pixel px py = true) → t.V[VF] = 1) ∧
      ((¬∃ px py, SpriteMeets s x y n.val px py ∧ s.FB.pixel px py = true) → t.V[VF] = 0) ∧
      t.dirty = true ∧ t.pc = s.pc + 2 ∧ OnlyDisplayAndPc s t) ∧
    (n.val ≠ 0 → 0x1000 < s.I.toNat + n.val → ∃ t, exec (.drw x y n) s = .next t ∧
      FaultOnly .addressRange (BitVec.ofNat 16 (max s.I.toNat 0x1000)) s t)

/-- The source's draw law S7, from R65: the same sprite drawn twice gives the screen back, and the second draw collides if
the first drew some pixel without a collision. (VF holds no coordinate: the first draw writes it.) -/
def Obligations.DrawTwiceErases : Prop :=
  ∀ (x y : Reg) (n : Fin 16) (s : State), x ≠ VF → y ≠ VF → s.I.toNat + n.val ≤ 0x1000 →
    ∃ t u, exec (.drw x y n) s = .next t ∧ exec (.drw x y n) t = .next u ∧ u.FB = s.FB ∧
      ((∃ px py, SpriteMeets s x y n.val px py) → t.V[VF] = 0 → u.V[VF] = 1)

/-- R90, R91, R92: the instructions that set I; VF and every other register unchanged (the spec's decisions D10 and
D17). -/
def Obligations.IndexRegister : Prop :=
  HasPattern 0xF000 0xA000 (fun op => .ldI (fieldNNN op)) ∧
  HasPattern 0xF0FF 0xF01E (fun op => .addI (fieldX op)) ∧
  HasPattern 0xF0FF 0xF029 (fun op => .ldF (fieldX op)) ∧
  ∀ (x : Reg) (nnn : Addr) (s : State),
    (∃ t, exec (.ldI nnn) s = .next t ∧ t.I.toNat = nnn.toNat ∧ t.pc = s.pc + 2 ∧ OnlyIndexAndPc s t) ∧
    (∃ t, exec (.addI x) s = .next t ∧ t.I.toNat = (s.I.toNat + s.V[x].toNat) % 65536 ∧ t.pc = s.pc + 2 ∧
      OnlyIndexAndPc s t) ∧
    (∃ t, exec (.ldF x) s = .next t ∧ t.I.toNat = Config.glyphBase.val + 5 * s.V[x].toNat ∧ t.pc = s.pc + 2 ∧
      OnlyIndexAndPc s t)

/-- R93: LD B stores the three decimal digits at I, I + 1, I + 2, every other byte unchanged; an address below 0x200 or
above 0xFFF is the fault of the lowest offending one, and then nothing is stored (the spec's decisions D4 and D5). -/
def Obligations.StoreBcdDigits : Prop :=
  HasPattern 0xF0FF 0xF033 (fun op => .ldB (fieldX op)) ∧
  ∀ (x : Reg) (s : State), s.M.wf = true →
    (0x200 ≤ s.I.toNat → s.I.toNat + 3 ≤ 0x1000 → ∃ t, exec (.ldB x) s = .next t ∧
      (t.M.read s.I.toNat).toNat = s.V[x].toNat / 100 ∧
      (t.M.read (s.I.toNat + 1)).toNat = s.V[x].toNat / 10 % 10 ∧
      (t.M.read (s.I.toNat + 2)).toNat = s.V[x].toNat % 10 ∧ SameBytesOutside s.I.toNat 3 s t ∧ t.pc = s.pc + 2 ∧
      OnlyMemoryAndPc s t) ∧
    (s.I.toNat < 0x200 → ∃ t, exec (.ldB x) s = .next t ∧ FaultOnly .reservedWrite s.I s t) ∧
    (0x1000 < s.I.toNat + 3 → ∃ t, exec (.ldB x) s = .next t ∧
      FaultOnly .addressRange (BitVec.ofNat 16 (max s.I.toNat 0x1000)) s t)

/-- R94: LD [I], Vx stores V0..Vx at I .. I + x, every other byte and I unchanged (the spec's decision D11); faults as
for LD B. -/
def Obligations.StoreRegisterBlock : Prop :=
  HasPattern 0xF0FF 0xF055 (fun op => .storeRegs (fieldX op)) ∧
  ∀ (x : Reg) (s : State), s.M.wf = true →
    (0x200 ≤ s.I.toNat → s.I.toNat + x.val ≤ 0xFFF → ∃ t, exec (.storeRegs x) s = .next t ∧
      (∀ j : Reg, j ≤ x → t.M.read (s.I.toNat + j.val) = s.V[j]) ∧ SameBytesOutside s.I.toNat (x.val + 1) s t ∧
      t.pc = s.pc + 2 ∧ OnlyMemoryAndPc s t) ∧
    (s.I.toNat < 0x200 → ∃ t, exec (.storeRegs x) s = .next t ∧ FaultOnly .reservedWrite s.I s t) ∧
    (0xFFF < s.I.toNat + x.val → ∃ t, exec (.storeRegs x) s = .next t ∧
      FaultOnly .addressRange (BitVec.ofNat 16 (max s.I.toNat 0x1000)) s t)

/-- R95: LD Vx, [I] loads V0..Vx from I .. I + x, every other register, I and memory unchanged; above 0xFFF it is
ADDRESS_RANGE and no register is written. -/
def Obligations.LoadRegisterBlock : Prop :=
  HasPattern 0xF0FF 0xF065 (fun op => .loadRegs (fieldX op)) ∧
  ∀ (x : Reg) (s : State),
    (s.I.toNat + x.val ≤ 0xFFF → ∃ t, exec (.loadRegs x) s = .next t ∧
      (∀ j : Reg, j ≤ x → t.V[j] = s.M.read (s.I.toNat + j.val)) ∧ (∀ j : Reg, x < j → t.V[j] = s.V[j]) ∧
      t.pc = s.pc + 2 ∧ OnlyRegsAndPc s t) ∧
    (0xFFF < s.I.toNat + x.val → ∃ t, exec (.loadRegs x) s = .next t ∧
      FaultOnly .addressRange (BitVec.ofNat 16 (max s.I.toNat 0x1000)) s t)

/-- R96, R97: the skips on a key; V[x] above 15 is KEY_RANGE(V[x]) and nothing else (the spec's decision D16). -/
def Obligations.SkipsOnKeys : Prop :=
  HasPattern 0xF0FF 0xE09E (fun op => .skp (fieldX op)) ∧
  HasPattern 0xF0FF 0xE0A1 (fun op => .sknp (fieldX op)) ∧
  ∀ (x : Reg) (s : State),
    (∀ h : s.V[x].toNat ≤ 15,
      (∃ t, exec (.skp x) s = .next t ∧ OnlyPc s t ∧ (s.K[s.V[x].toNat] = true → t.pc = s.pc + 4) ∧
        (s.K[s.V[x].toNat] = false → t.pc = s.pc + 2)) ∧
      (∃ t, exec (.sknp x) s = .next t ∧ OnlyPc s t ∧ (s.K[s.V[x].toNat] = false → t.pc = s.pc + 4) ∧
        (s.K[s.V[x].toNat] = true → t.pc = s.pc + 2))) ∧
    (15 < s.V[x].toNat →
      (∃ t, exec (.skp x) s = .next t ∧ FaultOnly .keyRange (BitVec.ofNat 16 s.V[x].toNat) s t) ∧
      (∃ t, exec (.sknp x) s = .next t ∧ FaultOnly .keyRange (BitVec.ofNat 16 s.V[x].toNat) s t))

/-- R98, R100, R101: the instructions that read and set the timers, and `sound_on` after setting the sound timer. -/
def Obligations.TimerTransfers : Prop :=
  HasPattern 0xF0FF 0xF007 (fun op => .ldVxDT (fieldX op)) ∧
  HasPattern 0xF0FF 0xF015 (fun op => .ldDTVx (fieldX op)) ∧
  HasPattern 0xF0FF 0xF018 (fun op => .ldSTVx (fieldX op)) ∧
  ∀ (x : Reg) (s : State),
    (∃ t, exec (.ldVxDT x) s = .next t ∧ t.V[x] = s.DT ∧ t.pc = s.pc + 2 ∧ SameRegsBut [x] s t ∧ OnlyRegsAndPc s t) ∧
    (∃ t, exec (.ldDTVx x) s = .next t ∧ t = { s with DT := s.V[x], pc := s.pc + 2 } ∧ SameBytes s t) ∧
    (∃ t, exec (.ldSTVx x) s = .next t ∧ t = { s with ST := s.V[x], pc := s.pc + 2 } ∧ SameBytes s t ∧
      (t.soundOn = true ↔ s.V[x].toNat ≠ 0))

/-- R99: LD Vx, K changes nothing while no key is pressed; else it stores KEY_CHOICE of the pressed keys, a function of
the keypad that answers a pressed key (the spec's decision D15: a level test). -/
def Obligations.WaitForKey : Prop :=
  HasPattern 0xF0FF 0xF00A (fun op => .ldVxK (fieldX op)) ∧
  ∃ choice : Vector Bool 16 → Key, (∀ K : Vector Bool 16, (∃ k : Key, K[k] = true) → K[choice K] = true) ∧
    ∀ (x : Reg) (s : State),
      ((∀ k : Key, s.K[k] = false) → exec (.ldVxK x) s = .next s) ∧
      ((∃ k : Key, s.K[k] = true) → ∃ t, exec (.ldVxK x) s = .next t ∧ t.V[x].toNat = (choice s.K).val ∧
        t.pc = s.pc + 2 ∧ SameRegsBut [x] s t ∧ OnlyRegsAndPc s t)

/-! ### Rules about all instructions -/

/-- From R63 and R111: no instruction is turned down in any state: every one answers a next state. -/
def Obligations.EveryInstructionAnswers : Prop :=
  ∀ (i : Instr) (s : State), ∃ t, exec i s = .next t

/-- R62: the next pc of every instruction that does not fault, in unbounded arithmetic from a pc that could be fetched; a
faulting instruction leaves pc. -/
def Obligations.NextPcOfEveryInstruction : Prop :=
  ∀ (i : Instr) (s t : State), s.status = .running → s.pc.toNat ≤ 0xFFE → exec i s = .next t →
    (t.status ≠ .running → t.pc = s.pc) ∧
    (t.status = .running →
      match i with
      | .jp nnn | .call nnn => t.pc.toNat = nnn.toNat
      | .jpV0 nnn => t.pc.toNat = nnn.toNat + s.V[0].toNat
      | .ret => ∃ j : Fin 16, j.val + 1 = s.SP.val ∧ t.pc = s.S[j]
      | .seByte _ _ | .sneByte _ _ | .seReg _ _ | .sneReg _ _ | .skp _ | .sknp _ =>
        t.pc.toNat = s.pc.toNat + 2 ∨ t.pc.toNat = s.pc.toNat + 4
      | .ldVxK _ => ((∀ k : Key, s.K[k] = false) → t.pc = s.pc) ∧
        ((∃ k : Key, s.K[k] = true) → t.pc.toNat = s.pc.toNat + 2)
      | _ => t.pc.toNat = s.pc.toNat + 2)

/-- From R67: a skip moves pc by 2 or 4 unless it faults, and its effect does not depend on memory: the skipped word is
neither fetched nor decoded. -/
def Obligations.SkippedWordIsNotDecoded : Prop :=
  ∀ (x y : Reg) (kk : Byte) (s : State) (m : Memory),
    ∀ i ∈ [Instr.seByte x kk, .sneByte x kk, .seReg x y, .sneReg x y, .skp x, .sknp x],
      exec i (s.setM m) = mapNext (State.setM m) (exec i s) ∧
      ∃ t, exec i s = .next t ∧
        (s.status = .running → t.status = .running → t.pc = s.pc + 2 ∨ t.pc = s.pc + 4)

/-- From R16: the instructions that write VF as a flag are 8xy4-8xy7, 8xyE and Dxyn, and unless they fault VF is then 0 or
1; any other changes V[15] only if its x field is 0xF and it has V[x] as a destination (6xkk, 7xkk, 8xy0-8xy3, Cxkk,
Fx07, Fx0A, Fx65). -/
def Obligations.WritersOfVF : Prop :=
  ∀ (i : Instr) (s t : State), exec i s = .next t →
    match i with
    | .addReg _ _ | .subReg _ _ | .shr _ _ | .subnReg _ _ | .shl _ _ | .drw _ _ _ =>
      t.V[VF] = 0 ∨ t.V[VF] = 1 ∨ ∃ c info, FaultOnly c info s t
    | .ldByte x _ | .addByte x _ | .ldReg x _ | .orReg x _ | .andReg x _ | .xorReg x _ | .rnd x _ | .ldVxDT x
    | .ldVxK x | .loadRegs x => x ≠ VF → t.V[VF] = s.V[VF]
    | _ => t.V[VF] = s.V[VF]

/-- From R18, R22, R24, R26, R27, R28 and R39: which instructions change I, the call stack, the timers, the framebuffer,
the dirty flag and memory; no instruction changes the keypad, clears the dirty flag, or touches the environment's
fields (the model's own, logs 1 and 2). -/
def Obligations.WritersOfEachState : Prop :=
  ∀ (i : Instr) (s t : State), exec i s = .next t →
    (t.I ≠ s.I → (∃ nnn, i = .ldI nnn) ∨ (∃ x, i = .addI x) ∨ ∃ x, i = .ldF x) ∧
    (t.SP ≠ s.SP → i = .ret ∨ ∃ nnn, i = .call nnn) ∧
    (t.S ≠ s.S → ∃ nnn, i = .call nnn) ∧
    (t.DT ≠ s.DT → ∃ x, i = .ldDTVx x) ∧
    (t.ST ≠ s.ST → ∃ x, i = .ldSTVx x) ∧
    (t.FB ≠ s.FB → i = .cls ∨ ∃ x y n, i = .drw x y n) ∧
    (t.dirty ≠ s.dirty → t.dirty = true ∧ (i = .cls ∨ ∃ x y n, i = .drw x y n)) ∧
    (t.M ≠ s.M → (∃ x, i = .ldB x) ∨ ∃ x, i = .storeRegs x) ∧
    t.K = s.K ∧ t.env = s.env

/-- From R17: VF as a flag is read by no instruction implicitly. An instruction that does not name VF does the same whatever
VF holds: the two next states differ in VF at most. The flag is V[15], which is 0 after a load. -/
def Obligations.VFIsNotReadImplicitly : Prop :=
  (∀ (i : Instr) (s : State) (b : Byte), ¬NamesVF i →
    ∃ t t', exec i s = .next t ∧ exec i (s.setV VF b) = .next t' ∧ t' = t.setV VF t'.V[VF]) ∧
  ∀ (rom : List Byte) (e : Env), (created rom e).V[VF] = 0

/-- From R24 and R28: no instruction reads the sound timer or the dirty flag. -/
def Obligations.SoundTimerAndDirtyNotRead : Prop :=
  ∀ (i : Instr) (s : State) (b : Byte) (d : Bool),
    (∃ t t', exec i s = .next t ∧ exec i (s.setST b) = .next t' ∧ t' = t.setST t'.ST) ∧
    (∃ t t', exec i s = .next t ∧ exec i (s.setDirty d) = .next t' ∧ t' = t.setDirty t'.dirty)

/-- From R18: an instruction other than Dxyn, Fx1E, Fx33, Fx55 and Fx65 does not read I. -/
def Obligations.IndexReaders : Prop :=
  ∀ (i : Instr) (s : State) (w : Word),
    (∃ x y n, i = .drw x y n) ∨ (∃ x, i = .addI x) ∨ (∃ x, i = .ldB x) ∨ (∃ x, i = .storeRegs x) ∨
      (∃ x, i = .loadRegs x) ∨
    ∃ t t', exec i s = .next t ∧ exec i (s.setI w) = .next t' ∧ t' = t.setI t'.I

/-- From R23 and R22: the contents of stack entries not in use are never observed, in any step. -/
def Obligations.DeadStackEntriesUnobservable : Prop :=
  ∀ s s' t : State, SameButDeadEntries s s' → step s = .next t → ∃ t', step s' = .next t' ∧ SameButDeadEntries t t'

/-- From R31: the byte `rnd` of an OP_CYCLE is used by Cxkk only. -/
def Obligations.RandomByteOnlyForRnd : Prop :=
  ∀ (i : Instr) (s : State) (rnd : Byte), (∀ x kk, i ≠ .rnd x kk) →
    exec i (s.withRnd rnd) = mapNext (State.withRnd rnd) (exec i s)

/-! ### Encoding and decoding -/

/-- From R54: the fields of a word are these parts of its value. -/
def Obligations.FieldExtraction : Prop :=
  ∀ op : Word, (fieldH op).toNat = op.toNat / 4096 ∧ (fieldX op).val = op.toNat / 256 % 16 ∧
    (fieldY op).val = op.toNat / 16 % 16 ∧ (fieldKK op).toNat = op.toNat % 256 ∧
    (fieldNNN op).toNat = op.toNat % 4096 ∧ (fieldN op).val = op.toNat % 16 ∧ (fieldF op).toNat = op.toNat % 16

/-- R52: a decoder always consumes two bytes, assembled with the first as the high byte. -/
def Obligations.DecodingConsumesTwoBytes : Prop :=
  (∀ (hi lo : Byte) (rest : List Byte) (i : Instr) (left : List Byte),
    decodeBytes (hi :: lo :: rest) = .ok (i, left) ↔
      left = rest ∧ decode (BitVec.ofNat 16 (256 * hi.toNat + lo.toNat)) = .ok i) ∧
  decodeBytes [] = .error .truncated ∧ ∀ b : Byte, decodeBytes [b] = .error .truncated

/-- R58: the invalid words are exactly those listed, each is rejected with its value, and executing one raises
INVALID_INSTRUCTION with the word and has no other effect. (0nnn, 5xyN and 9xyN are the spec's decision D29; `rnd` in the
environment's fields is the model's own, log 2.) -/
def Obligations.InvalidWordsAreThese : Prop :=
  ∀ op : Word, (¬InvalidWord op → ∃ i, decode op = .ok i) ∧
    (InvalidWord op → decode op = .error (.invalidInstruction op) ∧
      ∀ (rnd : Byte) (s : State), s.status = .running → fetch s = .ok op → ∃ t, opCycle rnd s = .next t ∧
        FaultOnly .invalidInstruction op (s.withRnd rnd) t ∧
        resultOf (.cycle rnd) s = .fault .invalidInstruction op)

/-- From R53, R56 and R57: decoding and encoding are inverse: a word decodes to an instruction exactly when it is that
instruction's word, for every instruction and every operand. -/
def Obligations.DecodeEncodeInverse : Prop :=
  ∀ (op : Word) (i : Instr), decode op = .ok i ↔ encode i = op

/-- Words written out from the bit patterns of R53 and the opcode map R56 decode to the instructions they stand for. -/
def Obligations.WrittenWordsDecode : Prop :=
  decode 0b0000000011100000 = .ok .cls ∧
  decode 0b0010101111001101 = .ok (.call 0xBCD) ∧
  decode 0b1000001110100101 = .ok (.subReg 3 10) ∧
  decode 0b1100111101011010 = .ok (.rnd 15 0x5A) ∧
  decode 0b1101010110100011 = .ok (.drw 5 10 3) ∧
  decode 0b1111011001010101 = .ok (.storeRegs 6) ∧
  decode 0b1110110010100001 = .ok (.sknp 12)

/-! ### OP_CYCLE, faults, steps -/

/-- R36: the fetch reads M[pc] as bits 15:8 and M[pc + 1] as bits 7:0, at any pc, odd or even; the lowest address above
0xFFF is reported. -/
def Obligations.FetchIsBigEndian : Prop :=
  ∀ s : State,
    (s.pc.toNat ≤ 0xFFE → ∃ op, fetch s = .ok op ∧
      op.toNat = 256 * (s.M.read s.pc.toNat).toNat + (s.M.read (s.pc.toNat + 1)).toNat) ∧
    (s.pc.toNat = 0xFFF → fetch s = .error 0x1000) ∧
    (0x1000 ≤ s.pc.toNat → fetch s = .error s.pc.toNat)

/-- R61 (the spec's decision D22): OP_CYCLE. Halted: nothing changes, HALTED is returned. Running: the fetch fault, else the decode fault,
else the instruction with the given `rnd`; FAULT is returned when the block has halted, OK when it has not. (The
environment's field `rnd` is the model's own, log 2.) -/
def Obligations.CycleIsTheTransaction : Prop :=
  ∀ (rnd : Byte) (s : State),
    (∀ c info, s.status = .halted c info →
      opCycle rnd s = .next s ∧ resultOf (.cycle rnd) s = .halted c info) ∧
    (s.status = .running →
      (∀ a, fetch s = .error a → ∃ t, opCycle rnd s = .next t ∧
        FaultOnly .addressRange (BitVec.ofNat 16 a) (s.withRnd rnd) t ∧
        resultOf (.cycle rnd) s = .fault .addressRange (BitVec.ofNat 16 a)) ∧
      (∀ op r, fetch s = .ok op → decode op = .error r → ∃ t, opCycle rnd s = .next t ∧
        FaultOnly .invalidInstruction op (s.withRnd rnd) t ∧
        resultOf (.cycle rnd) s = .fault .invalidInstruction op) ∧
      (∀ op i, fetch s = .ok op → decode op = .ok i → ∃ t, opCycle rnd s = .next t ∧
        exec i (s.withRnd rnd) = .next t ∧ (t.status = .running → resultOf (.cycle rnd) s = .ok) ∧
        (∀ c info, t.status = .halted c info → resultOf (.cycle rnd) s = .fault c info)))

/-- A step runs the decoded instruction: with the block running, no operation of the environment before it and the bytes at
pc decoding to `i`, step is exec of `i` on the state with a free draw taken (the draw is the model's own, log 2). -/
def Obligations.StepRunsDecodedInstruction : Prop :=
  ∀ (s : State) (i : Instr), s.env.pending = [] → s.status = .running → s.pc.toNat ≤ 0xFFE →
    decodeBytes [s.M.read s.pc.toNat, s.M.read (s.pc.toNat + 1)] = .ok (i, []) →
    step s = exec i (s.takeDraw.withRnd (Config.rndDraw s.env.draws))

/-- A word placed where the next step fetches (log 16) is the instruction that step runs, in every state with a canonical
memory. -/
def Obligations.PlacedWordIsRun : Prop :=
  ∀ (s : State) (nbits w : Nat) (i : Instr), s.M.wf = true → decodeTableWord nbits w = some i →
    step (s.withFetchWord nbits w) =
      exec i ((s.withFetchWord nbits w).takeDraw.withRnd (Config.rndDraw s.env.draws))

/-- R103, R104 (the spec's decision D22): faults are precise. An OP_CYCLE of a running block either leaves it running and returns OK, or halts it and
returns the fault, and then nothing but the status differs from before (and the model's own `rnd`, log 2). -/
def Obligations.FaultsArePrecise : Prop :=
  ∀ (rnd : Byte) (s : State), s.status = .running → ∃ t, opCycle rnd s = .next t ∧
    ((t.status = .running ∧ resultOf (.cycle rnd) s = .ok) ∨
      ∃ c info, FaultOnly c info (s.withRnd rnd) t ∧ resultOf (.cycle rnd) s = .fault c info)

/-- R102: the faults of an OP_CYCLE are exactly these, each raised where the table says and with the information the table
says; the codes are 1 to 6 (the spec's decisions D16 and D21). -/
def Obligations.FaultCausesAreThese : Prop :=
  (Cause.code .invalidInstruction = 1 ∧ Cause.code .stackOverflow = 2 ∧ Cause.code .stackUnderflow = 3 ∧
    Cause.code .addressRange = 4 ∧ Cause.code .reservedWrite = 5 ∧ Cause.code .keyRange = 6) ∧
  ∀ (rnd : Byte) (s : State) (c : Cause) (info : Word), s.status = .running →
    (resultOf (.cycle rnd) s = .fault c info ↔
      match c with
      | .invalidInstruction => fetch s = .ok info ∧ InvalidWord info
      | .stackOverflow => (∃ op nnn, fetch s = .ok op ∧ decode op = .ok (.call nnn)) ∧ s.SP.val = 16 ∧ info = s.pc
      | .stackUnderflow => (∃ op, fetch s = .ok op ∧ decode op = .ok .ret) ∧ s.SP.val = 0 ∧ info = s.pc
      | .addressRange =>
        (0xFFE < s.pc.toNat ∧ info.toNat = max s.pc.toNat 0x1000) ∨
        (info.toNat = max s.I.toNat 0x1000 ∧ ∃ op, fetch s = .ok op ∧
          ((∃ x y n, decode op = .ok (.drw x y n) ∧ n.val ≠ 0 ∧ 0x1000 < s.I.toNat + n.val) ∨
            (∃ x, decode op = .ok (.ldB x) ∧ 0x1000 < s.I.toNat + 3) ∨
            (∃ x, decode op = .ok (.storeRegs x) ∧ 0xFFF < s.I.toNat + x.val) ∨
            (∃ x, decode op = .ok (.loadRegs x) ∧ 0xFFF < s.I.toNat + x.val)))
      | .reservedWrite =>
        (∃ op x, fetch s = .ok op ∧ (decode op = .ok (.ldB x) ∨ decode op = .ok (.storeRegs x))) ∧
          s.I.toNat < 0x200 ∧ info = s.I
      | .keyRange => ∃ op x, fetch s = .ok op ∧ (decode op = .ok (.skp x) ∨ decode op = .ok (.sknp x)) ∧
          15 < s.V[x].toNat ∧ info.toNat = s.V[x].toNat)

/-- R106 (the spec's decision D22): a halted block stays halted with its cause and information under every operation but a successful OP_CREATE, and
its OP_CYCLE changes nothing. -/
def Obligations.HaltedUntilCreate : Prop :=
  ∀ (s : State) (c : Cause) (info : Word), s.status = .halted c info →
    (∀ rnd, opCycle rnd s = .next s ∧ resultOf (.cycle rnd) s = .halted c info) ∧
    ∀ (op : Op) (t : State), perform op s = .next t → t.status ≠ .halted c info →
      t.status = .running ∧ ∃ rom, op = .create rom

/-- R107 (the spec's decision D23): OP_TICK, OP_PRESS, OP_RELEASE, OP_READ_DISPLAY, OP_CLEAR_DIRTY and `sound_on` are the same whatever the status. -/
def Obligations.HostOperationsIgnoreStatus : Prop :=
  ∀ (s : State) (st : Status) (k : Nat), (s.setStatus st).soundOn = s.soundOn ∧
    ∀ op ∈ [Op.tick, .press k, .release k, .readDisplay, .clearDirty],
      perform op (s.setStatus st) = mapNext (State.setStatus st) (perform op s) ∧
      resultOf op (s.setStatus st) = resultOf op s

/-! ### Memory -/

/-- From R48 and R34: memory is what it reads as. Two canonical memories that read alike at every address are equal. -/
def Obligations.CanonicalMemoriesAreEqual : Prop :=
  ∀ m m' : Memory, m.wf = true → m'.wf = true → (∀ a, m.read a = m'.read a) → m = m'

/-- From R51: bytes stored by Fx55 are what the next fetch at their address sees: self-modifying code. -/
def Obligations.StoresAreFetched : Prop :=
  ∀ (x j j' : Reg) (s t : State) (target : Word), s.M.wf = true → s.status = .running → exec (.storeRegs x) s = .next t →
    t.status = .running → j'.val = j.val + 1 → j' ≤ x → target.toNat = s.I.toNat + j.val →
    ∃ op, fetch (t.setPC target) = .ok op ∧ op.toNat = 256 * s.V[j].toNat + s.V[j'].toNat

/-- From R42, R43 and R44: no step but a load changes a byte below 0x200, in any state that meets the invariant; a load
puts the reset contents there, which are what it reads as already. -/
def Obligations.ReservedRegionKeeps : Prop :=
  ∀ s t : State, s.Inv → step s = .next t → ∀ a, a < 0x200 → t.M.read a = s.M.read a

/-! ### Host operations -/

/-- R112: OP_TICK takes each timer down by one, floor zero, and touches nothing else. -/
def Obligations.TickTimers : Prop :=
  ∀ s : State, ∃ t, perform .tick s = .next t ∧ t.DT.toNat = s.DT.toNat - 1 ∧ t.ST.toNat = s.ST.toNat - 1 ∧
    t = { s with DT := t.DT, ST := t.ST } ∧ SameBytes s t

/-- R113: `sound_on` is 1 exactly when ST is not 0, and among the instructions only Fx18 changes it; no host operation but
OP_TICK (and a load, which sets every state element anew) does. -/
def Obligations.SoundOnFollowsTimer : Prop :=
  (∀ s : State, s.soundOn = true ↔ s.ST.toNat ≠ 0) ∧
  (∀ (i : Instr) (s t : State), exec i s = .next t → t.soundOn ≠ s.soundOn → ∃ x, i = .ldSTVx x) ∧
  ∀ (k : Nat) (s t : State), ∀ op ∈ [Op.press k, .release k, .readDisplay, .clearDirty], perform op s = .next t →
    t.soundOn = s.soundOn

/-- R115: OP_PRESS and OP_RELEASE set one key and nothing else; an index above 15 is refused (the spec's decision D33). -/
def Obligations.PressAndRelease : Prop :=
  ∀ (k : Nat) (s : State),
    (∀ h : k < 16,
      (∃ t, perform (.press k) s = .next t ∧ t.K[k] = true ∧ (∀ j : Key, j.val ≠ k → t.K[j] = s.K[j]) ∧
        t = { s with K := t.K } ∧ (s.K[k] = true → t = s)) ∧
      (∃ t, perform (.release k) s = .next t ∧ t.K[k] = false ∧ (∀ j : Key, j.val ≠ k → t.K[j] = s.K[j]) ∧
        t = { s with K := t.K } ∧ (s.K[k] = false → t = s))) ∧
    (16 ≤ k → perform (.press k) s = .refused (.inputContract k) ∧
      perform (.release k) s = .refused (.inputContract k) ∧
      resultOf (.press k) s = .refused (.inputContract k) ∧ resultOf (.release k) s = .refused (.inputContract k))

/-- R116: OP_READ_DISPLAY returns framebuffer and flag and changes nothing; OP_CLEAR_DIRTY clears the flag and nothing else;
of the operations other than a load only it clears the flag. -/
def Obligations.DisplayInterface : Prop :=
  (∀ s : State, perform .readDisplay s = .next s ∧ resultOf .readDisplay s = .display s.FB s.dirty ∧
    perform .clearDirty s = .next { s with dirty := false }) ∧
  ∀ (op : Op) (s t : State), perform op s = .next t → s.dirty = true → t.dirty = false →
    op = .clearDirty ∨ ∃ rom, op = .create rom

/-- R33 (with the spec's decision D25): after a ROM of at most 3584 bytes is loaded, from any state, every state element
has its reset value. -/
def Obligations.ResetValues : Prop :=
  ∀ (rom : List Byte) (s : State), rom.length ≤ 3584 → ∃ t, perform (.create rom) s = .next t ∧
    resultOf (.create rom) s = .ok ∧
    t.pc = 0x200 ∧ (∀ r : Reg, t.V[r] = 0) ∧ t.I = 0 ∧ t.SP.val = 0 ∧ (∀ j : Fin 16, t.S[j] = 0) ∧ t.DT = 0 ∧
    t.ST = 0 ∧ (∀ px py, t.FB.pixel px py = false) ∧ (∀ k : Key, t.K[k] = false) ∧ t.dirty = false ∧
    t.status = .running ∧
    (∀ j : Fin 80, t.M.read (Config.glyphBase.val + j.val) = Config.fontData j) ∧
    (∀ j, ∀ h : j < rom.length, t.M.read (0x200 + j) = rom[j]) ∧
    (∀ a, ¬(Config.glyphBase.val ≤ a ∧ a < Config.glyphBase.val + 80) → ¬(0x200 ≤ a ∧ a < 0x200 + rom.length) →
      t.M.read a = 0)

/-- From R109 and R120: a ROM above 3584 bytes is refused with LOAD_ERROR, and before the first successful load every
operation but a load is refused. (That a refused step has no next state is the model's form of this, log 12 and log 21.) -/
def Obligations.RefusedLoads : Prop :=
  (∀ (rom : List Byte) (s : State), 3584 < rom.length → perform (.create rom) s = .refused (.loadError rom.length) ∧
    resultOf (.create rom) s = .refused (.loadError rom.length) ∧
    performBlock (.create rom) none = .refused (.loadError rom.length)) ∧
  ∀ op : Op, (∀ r, op ≠ .create r) → performBlock op none = .refused .noBlock

/-- From R122: the empty ROM loads, and the first OP_CYCLE then faults with INVALID_INSTRUCTION(0x0000). -/
def Obligations.EmptyRomFaultsAtOnce : Prop :=
  ∀ (rnd : Byte) (s : State), ∃ t, perform (.create []) s = .next t ∧
    resultOf (.cycle rnd) t = .fault .invalidInstruction 0x0000

/-- From R125: an OP_TICK between Fx15 and Fx07 makes the Fx07 read one less than the value written, unless it was 0. -/
def Obligations.TickBetweenSetAndRead : Prop :=
  ∀ (x y : Reg) (s : State), ∃ t u v, exec (.ldDTVx x) s = .next t ∧ perform .tick t = .next u ∧
    exec (.ldVxDT y) u = .next v ∧ v.V[y].toNat = s.V[x].toNat - 1

/-! ### Whole runs -/

/-- From R47, R48 and R127: stepping a state whose environment has chosen the operations `ops` performs them one after
another in that order (the list is the model's own, log 1). -/
def Obligations.RunsPerformOperationsInOrder : Prop :=
  ∀ (ops : List Op) (s : State),
    Sys2Proof.core.run ops.length (s.withPending ops) = performAll ops (s.withPending [])

/-- The state after reset is that after OP_CREATE of the empty ROM and meets the invariant (log 9). -/
def Obligations.ResetMeetsInvariant : Prop :=
  State.reset = created [] Env.initial ∧ State.reset.Inv

/-- Every step keeps the invariant: pc at most 0x10FE, stack entries at most 0x1000, memory canonical and nothing listed
outside the program region (from R21, R22, R42, R44). -/
def Obligations.StepKeepsInvariant : Prop :=
  ∀ s t : State, s.Inv → step s = .next t → t.Inv

/-- Every state of a run, under any ROM that fits and any choices of the environment, meets the invariant and reads as after
reset below 0x200. -/
def Obligations.ReachableStatesMeetInvariant : Prop :=
  ∀ s : State, Reachable s → s.Inv ∧ ∀ a, a < 0x200 → s.M.read a = resetByte a
end

