-- ==== Sys2Proof/Laws/Memory.lean ====
section
/-!
SUPPORT. The laws of memory: a read after a write, the canonical form kept by every operation, blocks of bytes, and that
canonical memories that read alike are alike.
-/
namespace Sys2Proof.Machine

variable (m : Memory) (a a' : Nat) (b : Byte)

@[simp] theorem Memory.read_nil : Memory.read [] a = resetByte a := rfl

/-- Nothing is listed at an address the listed ones are all above, so it reads as unlisted. -/
theorem Memory.read_of_below (h : ∀ c ∈ m, a < c.1) : m.read a = resetByte a := by
  induction m with
  | nil => rfl
  | cons c m ih =>
    have hc : a < c.1 := h c (by simp)
    simp only [Memory.read, show ¬ a = c.1 by omega, if_false]
    exact ih fun d hd => h d (by simp [hd])

theorem Memory.wf_cons (m : Memory) (c : Host.Cell) :
    Memory.wf (c :: m) = true ↔ c.2 ≠ resetByte c.1 ∧ (∀ d ∈ m, c.1 < d.1) ∧ m.wf = true := by
  simp [Memory.wf, and_assoc]

/-! ### `put` -/

theorem Memory.read_put (h : ∀ c ∈ m, a < c.1) :
    (Memory.put a b m).read a' = if a' = a then b else m.read a' := by
  unfold Memory.put
  split
  · rename_i hb
    split
    · rename_i e; subst e; rw [m.read_of_below _ h, hb]
    · rfl
  · rfl

theorem Memory.put_wf (hm : m.wf = true) (h : ∀ c ∈ m, a < c.1) : (Memory.put a b m).wf = true := by
  unfold Memory.put
  split
  · exact hm
  · rename_i hb; exact (Memory.wf_cons m (a, b)).2 ⟨hb, h, hm⟩

theorem Memory.mem_put (c : Host.Cell) (h : c ∈ Memory.put a b m) : c = (a, b) ∨ c ∈ m := by
  unfold Memory.put at h
  split at h
  · exact .inr h
  · simpa using h

/-! ### `write` -/

/-- What a write lists was listed before or is the byte written. -/
theorem Memory.mem_write (c : Host.Cell) (h : c ∈ m.write a b) : c = (a, b) ∨ c ∈ m := by
  induction m with
  | nil => exact Memory.mem_put [] a b c h
  | cons d m ih =>
    simp only [Memory.write] at h
    split at h
    · exact Memory.mem_put _ a b c h
    · split at h
      · rcases Memory.mem_put _ a b c h with h | h
        · exact .inl h
        · exact .inr (by simp [h])
      · rcases List.mem_cons.1 h with h | h
        · exact .inr (by simp [h])
        · rcases ih h with h | h
          · exact .inl h
          · exact .inr (by simp [h])

/-- A write keeps the canonical form. -/
theorem Memory.write_wf (hm : m.wf = true) : (m.write a b).wf = true := by
  induction m with
  | nil => exact Memory.put_wf [] a b rfl (by simp)
  | cons d m ih =>
    obtain ⟨hd, hlt, hwf⟩ := (Memory.wf_cons m d).1 hm
    simp only [Memory.write]
    split
    · rename_i h
      refine Memory.put_wf _ a b hm fun c hc => ?_
      rcases List.mem_cons.1 hc with rfl | hc
      · exact h
      · exact lt_trans h (hlt c hc)
    · split
      · rename_i h; subst h; exact Memory.put_wf m _ b hwf hlt
      · refine (Memory.wf_cons _ d).2 ⟨hd, fun c hc => ?_, ih hwf⟩
        rcases Memory.mem_write m a b c hc with rfl | hc
        · dsimp only; omega
        · exact hlt c hc

/-- A read after a write: the byte written at its address, every other byte as before. -/
theorem Memory.read_write (hm : m.wf = true) : (m.write a b).read a' = if a' = a then b else m.read a' := by
  induction m with
  | nil => exact Memory.read_put [] a a' b (by simp)
  | cons d m ih =>
    obtain ⟨-, hlt, hwf⟩ := (Memory.wf_cons m d).1 hm
    simp only [Memory.write]
    split
    · rename_i h
      refine Memory.read_put _ a a' b fun c hc => ?_
      rcases List.mem_cons.1 hc with rfl | hc
      · exact h
      · exact lt_trans h (hlt c hc)
    · split
      · rename_i h
        subst h
        rw [Memory.read_put m d.1 a' b hlt]
        by_cases e : a' = d.1 <;> simp [Memory.read, e]
      · rename_i h1 h2
        simp only [Memory.read, ih hwf]
        by_cases e : a' = d.1
        · subst e; simp [Ne.symm h2]
        · simp [e]

/-! ### Blocks of bytes -/

theorem Memory.writeBytes_wf (bs : List Byte) (hm : m.wf = true) : (m.writeBytes a bs).wf = true := by
  induction bs generalizing a with
  | nil => exact hm
  | cons b bs ih => exact Memory.write_wf _ a b (ih (a + 1))

/-- Reading after a block is written: the block's own bytes, every other byte as before. -/
theorem Memory.read_writeBytes (bs : List Byte) (hm : m.wf = true) :
    (m.writeBytes a bs).read a' =
      if h : a ≤ a' ∧ a' - a < bs.length then bs[a' - a] else m.read a' := by
  induction bs generalizing a with
  | nil => simp [Memory.writeBytes]
  | cons b bs ih =>
    rw [Memory.writeBytes, Memory.read_write _ a a' b (Memory.writeBytes_wf m (a + 1) bs hm), ih (a + 1)]
    by_cases e : a' = a
    · subst e; simp
    · by_cases h : a + 1 ≤ a' ∧ a' - (a + 1) < bs.length
      · have h' : a ≤ a' ∧ a' - a < (b :: bs).length := by simp only [List.length_cons]; omega
        have hi : a' - a = a' - (a + 1) + 1 := by omega
        simp only [e, if_false, dif_pos h, dif_pos h']
        simp [hi]
      · have h' : ¬(a ≤ a' ∧ a' - a < (b :: bs).length) := by simp only [List.length_cons]; omega
        rw [if_neg e, dif_neg h, dif_neg h']

theorem Memory.mem_writeBytes (bs : List Byte) (c : Host.Cell) (h : c ∈ m.writeBytes a bs) :
    (a ≤ c.1 ∧ c.1 < a + bs.length) ∨ c ∈ m := by
  induction bs generalizing a with
  | nil => exact .inr h
  | cons b bs ih =>
    rcases Memory.mem_write _ a b c h with rfl | h
    · left; simp
    · rcases ih (a + 1) h with h | h
      · left; simp only [List.length_cons]; omega
      · exact .inr h

@[simp] theorem Memory.readBytes_length (n : Nat) : (m.readBytes a n).length = n := by
  induction n generalizing a with
  | zero => rfl
  | succ n ih => simp [Memory.readBytes, ih]

theorem Memory.readBytes_getElem (n k : Nat) (h : k < (m.readBytes a n).length) :
    (m.readBytes a n)[k] = m.read (a + k) := by
  induction n generalizing a k with
  | zero => simp at h
  | succ n ih =>
    cases k with
    | zero => simp [Memory.readBytes]
    | succ k =>
      simp only [Memory.readBytes, List.getElem_cons_succ]
      rw [ih]
      congr 1
      omega

/-! ### Addresses of the program region -/

/-- A write inside the program region lists nothing outside it. -/
theorem Memory.writeBytes_region (bs : List Byte) (hm : m.InProgramRegion) (h : 0x200 ≤ a)
    (h' : a + bs.length ≤ 0x1000) : (m.writeBytes a bs).InProgramRegion := fun c hc => by
  rcases Memory.mem_writeBytes m a bs c hc with h | h
  · omega
  · exact hm c h

/-- Outside the program region memory reads as after reset. -/
theorem Memory.read_outside_region (hm : m.InProgramRegion) (h : ¬(0x200 ≤ a ∧ a ≤ 0xFFF)) :
    m.read a = resetByte a := by
  induction m with
  | nil => rfl
  | cons c m ih =>
    have hc := hm c (by simp)
    have e : ¬ a = c.1 := by rintro rfl; exact h hc
    simp only [Memory.read, e, if_false]
    exact ih fun d hd => hm d (by simp [hd])

/-- From 0x200 on an unlisted address reads as 0. -/
theorem resetByte_program (h : 0x200 ≤ a) : resetByte a = 0 := by
  simp [resetByte, show ¬ a < 0x200 by omega]

end Sys2Proof.Machine
end

