-- ==== Sys2Proof/Laws/State.lean ====
section
/-!
SUPPORT. One lemma per field per update of State, true by rfl, so that no proof unfolds a record update.
-/
namespace Sys2Proof.Machine

variable (s : State)

@[simp] theorem State.setV_V (x : Reg) (b : Byte) : (s.setV x b).V = s.V.set x b := rfl
@[simp] theorem State.setV_I (x : Reg) (b : Byte) : (s.setV x b).I = s.I := rfl
@[simp] theorem State.setV_pc (x : Reg) (b : Byte) : (s.setV x b).pc = s.pc := rfl
@[simp] theorem State.setV_SP (x : Reg) (b : Byte) : (s.setV x b).SP = s.SP := rfl
@[simp] theorem State.setV_S (x : Reg) (b : Byte) : (s.setV x b).S = s.S := rfl
@[simp] theorem State.setV_DT (x : Reg) (b : Byte) : (s.setV x b).DT = s.DT := rfl
@[simp] theorem State.setV_ST (x : Reg) (b : Byte) : (s.setV x b).ST = s.ST := rfl
@[simp] theorem State.setV_M (x : Reg) (b : Byte) : (s.setV x b).M = s.M := rfl
@[simp] theorem State.setV_FB (x : Reg) (b : Byte) : (s.setV x b).FB = s.FB := rfl
@[simp] theorem State.setV_K (x : Reg) (b : Byte) : (s.setV x b).K = s.K := rfl
@[simp] theorem State.setV_dirty (x : Reg) (b : Byte) : (s.setV x b).dirty = s.dirty := rfl
@[simp] theorem State.setV_status (x : Reg) (b : Byte) : (s.setV x b).status = s.status := rfl
@[simp] theorem State.setV_env (x : Reg) (b : Byte) : (s.setV x b).env = s.env := rfl

@[simp] theorem State.setRegs_V (v : Vector Byte 16) : (s.setRegs v).V = v := rfl
@[simp] theorem State.setRegs_I (v : Vector Byte 16) : (s.setRegs v).I = s.I := rfl
@[simp] theorem State.setRegs_pc (v : Vector Byte 16) : (s.setRegs v).pc = s.pc := rfl
@[simp] theorem State.setRegs_SP (v : Vector Byte 16) : (s.setRegs v).SP = s.SP := rfl
@[simp] theorem State.setRegs_S (v : Vector Byte 16) : (s.setRegs v).S = s.S := rfl
@[simp] theorem State.setRegs_DT (v : Vector Byte 16) : (s.setRegs v).DT = s.DT := rfl
@[simp] theorem State.setRegs_ST (v : Vector Byte 16) : (s.setRegs v).ST = s.ST := rfl
@[simp] theorem State.setRegs_M (v : Vector Byte 16) : (s.setRegs v).M = s.M := rfl
@[simp] theorem State.setRegs_FB (v : Vector Byte 16) : (s.setRegs v).FB = s.FB := rfl
@[simp] theorem State.setRegs_K (v : Vector Byte 16) : (s.setRegs v).K = s.K := rfl
@[simp] theorem State.setRegs_dirty (v : Vector Byte 16) : (s.setRegs v).dirty = s.dirty := rfl
@[simp] theorem State.setRegs_status (v : Vector Byte 16) : (s.setRegs v).status = s.status := rfl
@[simp] theorem State.setRegs_env (v : Vector Byte 16) : (s.setRegs v).env = s.env := rfl

@[simp] theorem State.setI_V (w : Word) : (s.setI w).V = s.V := rfl
@[simp] theorem State.setI_I (w : Word) : (s.setI w).I = w := rfl
@[simp] theorem State.setI_pc (w : Word) : (s.setI w).pc = s.pc := rfl
@[simp] theorem State.setI_SP (w : Word) : (s.setI w).SP = s.SP := rfl
@[simp] theorem State.setI_S (w : Word) : (s.setI w).S = s.S := rfl
@[simp] theorem State.setI_DT (w : Word) : (s.setI w).DT = s.DT := rfl
@[simp] theorem State.setI_ST (w : Word) : (s.setI w).ST = s.ST := rfl
@[simp] theorem State.setI_M (w : Word) : (s.setI w).M = s.M := rfl
@[simp] theorem State.setI_FB (w : Word) : (s.setI w).FB = s.FB := rfl
@[simp] theorem State.setI_K (w : Word) : (s.setI w).K = s.K := rfl
@[simp] theorem State.setI_dirty (w : Word) : (s.setI w).dirty = s.dirty := rfl
@[simp] theorem State.setI_status (w : Word) : (s.setI w).status = s.status := rfl
@[simp] theorem State.setI_env (w : Word) : (s.setI w).env = s.env := rfl

@[simp] theorem State.setPC_V (w : Word) : (s.setPC w).V = s.V := rfl
@[simp] theorem State.setPC_I (w : Word) : (s.setPC w).I = s.I := rfl
@[simp] theorem State.setPC_pc (w : Word) : (s.setPC w).pc = w := rfl
@[simp] theorem State.setPC_SP (w : Word) : (s.setPC w).SP = s.SP := rfl
@[simp] theorem State.setPC_S (w : Word) : (s.setPC w).S = s.S := rfl
@[simp] theorem State.setPC_DT (w : Word) : (s.setPC w).DT = s.DT := rfl
@[simp] theorem State.setPC_ST (w : Word) : (s.setPC w).ST = s.ST := rfl
@[simp] theorem State.setPC_M (w : Word) : (s.setPC w).M = s.M := rfl
@[simp] theorem State.setPC_FB (w : Word) : (s.setPC w).FB = s.FB := rfl
@[simp] theorem State.setPC_K (w : Word) : (s.setPC w).K = s.K := rfl
@[simp] theorem State.setPC_dirty (w : Word) : (s.setPC w).dirty = s.dirty := rfl
@[simp] theorem State.setPC_status (w : Word) : (s.setPC w).status = s.status := rfl
@[simp] theorem State.setPC_env (w : Word) : (s.setPC w).env = s.env := rfl

@[simp] theorem State.setStack_V (d : Fin 17) (e : Vector Word 16) : (s.setStack d e).V = s.V := rfl
@[simp] theorem State.setStack_I (d : Fin 17) (e : Vector Word 16) : (s.setStack d e).I = s.I := rfl
@[simp] theorem State.setStack_pc (d : Fin 17) (e : Vector Word 16) : (s.setStack d e).pc = s.pc := rfl
@[simp] theorem State.setStack_SP (d : Fin 17) (e : Vector Word 16) : (s.setStack d e).SP = d := rfl
@[simp] theorem State.setStack_S (d : Fin 17) (e : Vector Word 16) : (s.setStack d e).S = e := rfl
@[simp] theorem State.setStack_DT (d : Fin 17) (e : Vector Word 16) : (s.setStack d e).DT = s.DT := rfl
@[simp] theorem State.setStack_ST (d : Fin 17) (e : Vector Word 16) : (s.setStack d e).ST = s.ST := rfl
@[simp] theorem State.setStack_M (d : Fin 17) (e : Vector Word 16) : (s.setStack d e).M = s.M := rfl
@[simp] theorem State.setStack_FB (d : Fin 17) (e : Vector Word 16) : (s.setStack d e).FB = s.FB := rfl
@[simp] theorem State.setStack_K (d : Fin 17) (e : Vector Word 16) : (s.setStack d e).K = s.K := rfl
@[simp] theorem State.setStack_dirty (d : Fin 17) (e : Vector Word 16) : (s.setStack d e).dirty = s.dirty := rfl
@[simp] theorem State.setStack_status (d : Fin 17) (e : Vector Word 16) : (s.setStack d e).status = s.status := rfl
@[simp] theorem State.setStack_env (d : Fin 17) (e : Vector Word 16) : (s.setStack d e).env = s.env := rfl

@[simp] theorem State.setDT_V (b : Byte) : (s.setDT b).V = s.V := rfl
@[simp] theorem State.setDT_I (b : Byte) : (s.setDT b).I = s.I := rfl
@[simp] theorem State.setDT_pc (b : Byte) : (s.setDT b).pc = s.pc := rfl
@[simp] theorem State.setDT_SP (b : Byte) : (s.setDT b).SP = s.SP := rfl
@[simp] theorem State.setDT_S (b : Byte) : (s.setDT b).S = s.S := rfl
@[simp] theorem State.setDT_DT (b : Byte) : (s.setDT b).DT = b := rfl
@[simp] theorem State.setDT_ST (b : Byte) : (s.setDT b).ST = s.ST := rfl
@[simp] theorem State.setDT_M (b : Byte) : (s.setDT b).M = s.M := rfl
@[simp] theorem State.setDT_FB (b : Byte) : (s.setDT b).FB = s.FB := rfl
@[simp] theorem State.setDT_K (b : Byte) : (s.setDT b).K = s.K := rfl
@[simp] theorem State.setDT_dirty (b : Byte) : (s.setDT b).dirty = s.dirty := rfl
@[simp] theorem State.setDT_status (b : Byte) : (s.setDT b).status = s.status := rfl
@[simp] theorem State.setDT_env (b : Byte) : (s.setDT b).env = s.env := rfl

@[simp] theorem State.setST_V (b : Byte) : (s.setST b).V = s.V := rfl
@[simp] theorem State.setST_I (b : Byte) : (s.setST b).I = s.I := rfl
@[simp] theorem State.setST_pc (b : Byte) : (s.setST b).pc = s.pc := rfl
@[simp] theorem State.setST_SP (b : Byte) : (s.setST b).SP = s.SP := rfl
@[simp] theorem State.setST_S (b : Byte) : (s.setST b).S = s.S := rfl
@[simp] theorem State.setST_DT (b : Byte) : (s.setST b).DT = s.DT := rfl
@[simp] theorem State.setST_ST (b : Byte) : (s.setST b).ST = b := rfl
@[simp] theorem State.setST_M (b : Byte) : (s.setST b).M = s.M := rfl
@[simp] theorem State.setST_FB (b : Byte) : (s.setST b).FB = s.FB := rfl
@[simp] theorem State.setST_K (b : Byte) : (s.setST b).K = s.K := rfl
@[simp] theorem State.setST_dirty (b : Byte) : (s.setST b).dirty = s.dirty := rfl
@[simp] theorem State.setST_status (b : Byte) : (s.setST b).status = s.status := rfl
@[simp] theorem State.setST_env (b : Byte) : (s.setST b).env = s.env := rfl

@[simp] theorem State.setM_V (m : Memory) : (s.setM m).V = s.V := rfl
@[simp] theorem State.setM_I (m : Memory) : (s.setM m).I = s.I := rfl
@[simp] theorem State.setM_pc (m : Memory) : (s.setM m).pc = s.pc := rfl
@[simp] theorem State.setM_SP (m : Memory) : (s.setM m).SP = s.SP := rfl
@[simp] theorem State.setM_S (m : Memory) : (s.setM m).S = s.S := rfl
@[simp] theorem State.setM_DT (m : Memory) : (s.setM m).DT = s.DT := rfl
@[simp] theorem State.setM_ST (m : Memory) : (s.setM m).ST = s.ST := rfl
@[simp] theorem State.setM_M (m : Memory) : (s.setM m).M = m := rfl
@[simp] theorem State.setM_FB (m : Memory) : (s.setM m).FB = s.FB := rfl
@[simp] theorem State.setM_K (m : Memory) : (s.setM m).K = s.K := rfl
@[simp] theorem State.setM_dirty (m : Memory) : (s.setM m).dirty = s.dirty := rfl
@[simp] theorem State.setM_status (m : Memory) : (s.setM m).status = s.status := rfl
@[simp] theorem State.setM_env (m : Memory) : (s.setM m).env = s.env := rfl

@[simp] theorem State.setFB_V (fb : Framebuffer) : (s.setFB fb).V = s.V := rfl
@[simp] theorem State.setFB_I (fb : Framebuffer) : (s.setFB fb).I = s.I := rfl
@[simp] theorem State.setFB_pc (fb : Framebuffer) : (s.setFB fb).pc = s.pc := rfl
@[simp] theorem State.setFB_SP (fb : Framebuffer) : (s.setFB fb).SP = s.SP := rfl
@[simp] theorem State.setFB_S (fb : Framebuffer) : (s.setFB fb).S = s.S := rfl
@[simp] theorem State.setFB_DT (fb : Framebuffer) : (s.setFB fb).DT = s.DT := rfl
@[simp] theorem State.setFB_ST (fb : Framebuffer) : (s.setFB fb).ST = s.ST := rfl
@[simp] theorem State.setFB_M (fb : Framebuffer) : (s.setFB fb).M = s.M := rfl
@[simp] theorem State.setFB_FB (fb : Framebuffer) : (s.setFB fb).FB = fb := rfl
@[simp] theorem State.setFB_K (fb : Framebuffer) : (s.setFB fb).K = s.K := rfl
@[simp] theorem State.setFB_dirty (fb : Framebuffer) : (s.setFB fb).dirty = s.dirty := rfl
@[simp] theorem State.setFB_status (fb : Framebuffer) : (s.setFB fb).status = s.status := rfl
@[simp] theorem State.setFB_env (fb : Framebuffer) : (s.setFB fb).env = s.env := rfl

@[simp] theorem State.setKey_V (k : Key) (p : Bool) : (s.setKey k p).V = s.V := rfl
@[simp] theorem State.setKey_I (k : Key) (p : Bool) : (s.setKey k p).I = s.I := rfl
@[simp] theorem State.setKey_pc (k : Key) (p : Bool) : (s.setKey k p).pc = s.pc := rfl
@[simp] theorem State.setKey_SP (k : Key) (p : Bool) : (s.setKey k p).SP = s.SP := rfl
@[simp] theorem State.setKey_S (k : Key) (p : Bool) : (s.setKey k p).S = s.S := rfl
@[simp] theorem State.setKey_DT (k : Key) (p : Bool) : (s.setKey k p).DT = s.DT := rfl
@[simp] theorem State.setKey_ST (k : Key) (p : Bool) : (s.setKey k p).ST = s.ST := rfl
@[simp] theorem State.setKey_M (k : Key) (p : Bool) : (s.setKey k p).M = s.M := rfl
@[simp] theorem State.setKey_FB (k : Key) (p : Bool) : (s.setKey k p).FB = s.FB := rfl
@[simp] theorem State.setKey_K (k : Key) (p : Bool) : (s.setKey k p).K = s.K.set k p := rfl
@[simp] theorem State.setKey_dirty (k : Key) (p : Bool) : (s.setKey k p).dirty = s.dirty := rfl
@[simp] theorem State.setKey_status (k : Key) (p : Bool) : (s.setKey k p).status = s.status := rfl
@[simp] theorem State.setKey_env (k : Key) (p : Bool) : (s.setKey k p).env = s.env := rfl

@[simp] theorem State.setDirty_V (b : Bool) : (s.setDirty b).V = s.V := rfl
@[simp] theorem State.setDirty_I (b : Bool) : (s.setDirty b).I = s.I := rfl
@[simp] theorem State.setDirty_pc (b : Bool) : (s.setDirty b).pc = s.pc := rfl
@[simp] theorem State.setDirty_SP (b : Bool) : (s.setDirty b).SP = s.SP := rfl
@[simp] theorem State.setDirty_S (b : Bool) : (s.setDirty b).S = s.S := rfl
@[simp] theorem State.setDirty_DT (b : Bool) : (s.setDirty b).DT = s.DT := rfl
@[simp] theorem State.setDirty_ST (b : Bool) : (s.setDirty b).ST = s.ST := rfl
@[simp] theorem State.setDirty_M (b : Bool) : (s.setDirty b).M = s.M := rfl
@[simp] theorem State.setDirty_FB (b : Bool) : (s.setDirty b).FB = s.FB := rfl
@[simp] theorem State.setDirty_K (b : Bool) : (s.setDirty b).K = s.K := rfl
@[simp] theorem State.setDirty_dirty (b : Bool) : (s.setDirty b).dirty = b := rfl
@[simp] theorem State.setDirty_status (b : Bool) : (s.setDirty b).status = s.status := rfl
@[simp] theorem State.setDirty_env (b : Bool) : (s.setDirty b).env = s.env := rfl

@[simp] theorem State.setStatus_V (st : Status) : (s.setStatus st).V = s.V := rfl
@[simp] theorem State.setStatus_I (st : Status) : (s.setStatus st).I = s.I := rfl
@[simp] theorem State.setStatus_pc (st : Status) : (s.setStatus st).pc = s.pc := rfl
@[simp] theorem State.setStatus_SP (st : Status) : (s.setStatus st).SP = s.SP := rfl
@[simp] theorem State.setStatus_S (st : Status) : (s.setStatus st).S = s.S := rfl
@[simp] theorem State.setStatus_DT (st : Status) : (s.setStatus st).DT = s.DT := rfl
@[simp] theorem State.setStatus_ST (st : Status) : (s.setStatus st).ST = s.ST := rfl
@[simp] theorem State.setStatus_M (st : Status) : (s.setStatus st).M = s.M := rfl
@[simp] theorem State.setStatus_FB (st : Status) : (s.setStatus st).FB = s.FB := rfl
@[simp] theorem State.setStatus_K (st : Status) : (s.setStatus st).K = s.K := rfl
@[simp] theorem State.setStatus_dirty (st : Status) : (s.setStatus st).dirty = s.dirty := rfl
@[simp] theorem State.setStatus_status (st : Status) : (s.setStatus st).status = st := rfl
@[simp] theorem State.setStatus_env (st : Status) : (s.setStatus st).env = s.env := rfl

@[simp] theorem State.setEnv_V (e : Env) : (s.setEnv e).V = s.V := rfl
@[simp] theorem State.setEnv_I (e : Env) : (s.setEnv e).I = s.I := rfl
@[simp] theorem State.setEnv_pc (e : Env) : (s.setEnv e).pc = s.pc := rfl
@[simp] theorem State.setEnv_SP (e : Env) : (s.setEnv e).SP = s.SP := rfl
@[simp] theorem State.setEnv_S (e : Env) : (s.setEnv e).S = s.S := rfl
@[simp] theorem State.setEnv_DT (e : Env) : (s.setEnv e).DT = s.DT := rfl
@[simp] theorem State.setEnv_ST (e : Env) : (s.setEnv e).ST = s.ST := rfl
@[simp] theorem State.setEnv_M (e : Env) : (s.setEnv e).M = s.M := rfl
@[simp] theorem State.setEnv_FB (e : Env) : (s.setEnv e).FB = s.FB := rfl
@[simp] theorem State.setEnv_K (e : Env) : (s.setEnv e).K = s.K := rfl
@[simp] theorem State.setEnv_dirty (e : Env) : (s.setEnv e).dirty = s.dirty := rfl
@[simp] theorem State.setEnv_status (e : Env) : (s.setEnv e).status = s.status := rfl
@[simp] theorem State.setEnv_env (e : Env) : (s.setEnv e).env = e := rfl

@[simp] theorem State.advance_V : (s.advance).V = s.V := rfl
@[simp] theorem State.advance_I : (s.advance).I = s.I := rfl
@[simp] theorem State.advance_pc : (s.advance).pc = s.pc + 2 := rfl
@[simp] theorem State.advance_SP : (s.advance).SP = s.SP := rfl
@[simp] theorem State.advance_S : (s.advance).S = s.S := rfl
@[simp] theorem State.advance_DT : (s.advance).DT = s.DT := rfl
@[simp] theorem State.advance_ST : (s.advance).ST = s.ST := rfl
@[simp] theorem State.advance_M : (s.advance).M = s.M := rfl
@[simp] theorem State.advance_FB : (s.advance).FB = s.FB := rfl
@[simp] theorem State.advance_K : (s.advance).K = s.K := rfl
@[simp] theorem State.advance_dirty : (s.advance).dirty = s.dirty := rfl
@[simp] theorem State.advance_status : (s.advance).status = s.status := rfl
@[simp] theorem State.advance_env : (s.advance).env = s.env := rfl

@[simp] theorem State.skipIf_V (c : Bool) : (s.skipIf c).V = s.V := rfl
@[simp] theorem State.skipIf_I (c : Bool) : (s.skipIf c).I = s.I := rfl
@[simp] theorem State.skipIf_pc (c : Bool) : (s.skipIf c).pc = if c then s.pc + 4 else s.pc + 2 := rfl
@[simp] theorem State.skipIf_SP (c : Bool) : (s.skipIf c).SP = s.SP := rfl
@[simp] theorem State.skipIf_S (c : Bool) : (s.skipIf c).S = s.S := rfl
@[simp] theorem State.skipIf_DT (c : Bool) : (s.skipIf c).DT = s.DT := rfl
@[simp] theorem State.skipIf_ST (c : Bool) : (s.skipIf c).ST = s.ST := rfl
@[simp] theorem State.skipIf_M (c : Bool) : (s.skipIf c).M = s.M := rfl
@[simp] theorem State.skipIf_FB (c : Bool) : (s.skipIf c).FB = s.FB := rfl
@[simp] theorem State.skipIf_K (c : Bool) : (s.skipIf c).K = s.K := rfl
@[simp] theorem State.skipIf_dirty (c : Bool) : (s.skipIf c).dirty = s.dirty := rfl
@[simp] theorem State.skipIf_status (c : Bool) : (s.skipIf c).status = s.status := rfl
@[simp] theorem State.skipIf_env (c : Bool) : (s.skipIf c).env = s.env := rfl

@[simp] theorem State.setFlag_V (f : Bool) : (s.setFlag f).V = s.V.set VF (flagByte f) := rfl
@[simp] theorem State.setFlag_I (f : Bool) : (s.setFlag f).I = s.I := rfl
@[simp] theorem State.setFlag_pc (f : Bool) : (s.setFlag f).pc = s.pc := rfl
@[simp] theorem State.setFlag_SP (f : Bool) : (s.setFlag f).SP = s.SP := rfl
@[simp] theorem State.setFlag_S (f : Bool) : (s.setFlag f).S = s.S := rfl
@[simp] theorem State.setFlag_DT (f : Bool) : (s.setFlag f).DT = s.DT := rfl
@[simp] theorem State.setFlag_ST (f : Bool) : (s.setFlag f).ST = s.ST := rfl
@[simp] theorem State.setFlag_M (f : Bool) : (s.setFlag f).M = s.M := rfl
@[simp] theorem State.setFlag_FB (f : Bool) : (s.setFlag f).FB = s.FB := rfl
@[simp] theorem State.setFlag_K (f : Bool) : (s.setFlag f).K = s.K := rfl
@[simp] theorem State.setFlag_dirty (f : Bool) : (s.setFlag f).dirty = s.dirty := rfl
@[simp] theorem State.setFlag_status (f : Bool) : (s.setFlag f).status = s.status := rfl
@[simp] theorem State.setFlag_env (f : Bool) : (s.setFlag f).env = s.env := rfl

@[simp] theorem State.setResultFlag_V (x : Reg) (b : Byte) (f : Bool) : (s.setResultFlag x b f).V = (s.V.set x b).set VF (flagByte f) := rfl
@[simp] theorem State.setResultFlag_I (x : Reg) (b : Byte) (f : Bool) : (s.setResultFlag x b f).I = s.I := rfl
@[simp] theorem State.setResultFlag_pc (x : Reg) (b : Byte) (f : Bool) : (s.setResultFlag x b f).pc = s.pc := rfl
@[simp] theorem State.setResultFlag_SP (x : Reg) (b : Byte) (f : Bool) : (s.setResultFlag x b f).SP = s.SP := rfl
@[simp] theorem State.setResultFlag_S (x : Reg) (b : Byte) (f : Bool) : (s.setResultFlag x b f).S = s.S := rfl
@[simp] theorem State.setResultFlag_DT (x : Reg) (b : Byte) (f : Bool) : (s.setResultFlag x b f).DT = s.DT := rfl
@[simp] theorem State.setResultFlag_ST (x : Reg) (b : Byte) (f : Bool) : (s.setResultFlag x b f).ST = s.ST := rfl
@[simp] theorem State.setResultFlag_M (x : Reg) (b : Byte) (f : Bool) : (s.setResultFlag x b f).M = s.M := rfl
@[simp] theorem State.setResultFlag_FB (x : Reg) (b : Byte) (f : Bool) : (s.setResultFlag x b f).FB = s.FB := rfl
@[simp] theorem State.setResultFlag_K (x : Reg) (b : Byte) (f : Bool) : (s.setResultFlag x b f).K = s.K := rfl
@[simp] theorem State.setResultFlag_dirty (x : Reg) (b : Byte) (f : Bool) : (s.setResultFlag x b f).dirty = s.dirty := rfl
@[simp] theorem State.setResultFlag_status (x : Reg) (b : Byte) (f : Bool) : (s.setResultFlag x b f).status = s.status := rfl
@[simp] theorem State.setResultFlag_env (x : Reg) (b : Byte) (f : Bool) : (s.setResultFlag x b f).env = s.env := rfl

@[simp] theorem State.withRnd_V (b : Byte) : (s.withRnd b).V = s.V := rfl
@[simp] theorem State.withRnd_I (b : Byte) : (s.withRnd b).I = s.I := rfl
@[simp] theorem State.withRnd_pc (b : Byte) : (s.withRnd b).pc = s.pc := rfl
@[simp] theorem State.withRnd_SP (b : Byte) : (s.withRnd b).SP = s.SP := rfl
@[simp] theorem State.withRnd_S (b : Byte) : (s.withRnd b).S = s.S := rfl
@[simp] theorem State.withRnd_DT (b : Byte) : (s.withRnd b).DT = s.DT := rfl
@[simp] theorem State.withRnd_ST (b : Byte) : (s.withRnd b).ST = s.ST := rfl
@[simp] theorem State.withRnd_M (b : Byte) : (s.withRnd b).M = s.M := rfl
@[simp] theorem State.withRnd_FB (b : Byte) : (s.withRnd b).FB = s.FB := rfl
@[simp] theorem State.withRnd_K (b : Byte) : (s.withRnd b).K = s.K := rfl
@[simp] theorem State.withRnd_dirty (b : Byte) : (s.withRnd b).dirty = s.dirty := rfl
@[simp] theorem State.withRnd_status (b : Byte) : (s.withRnd b).status = s.status := rfl
@[simp] theorem State.withRnd_env (b : Byte) : (s.withRnd b).env = { s.env with rnd := b } := rfl

@[simp] theorem State.takeDraw_V : (s.takeDraw).V = s.V := rfl
@[simp] theorem State.takeDraw_I : (s.takeDraw).I = s.I := rfl
@[simp] theorem State.takeDraw_pc : (s.takeDraw).pc = s.pc := rfl
@[simp] theorem State.takeDraw_SP : (s.takeDraw).SP = s.SP := rfl
@[simp] theorem State.takeDraw_S : (s.takeDraw).S = s.S := rfl
@[simp] theorem State.takeDraw_DT : (s.takeDraw).DT = s.DT := rfl
@[simp] theorem State.takeDraw_ST : (s.takeDraw).ST = s.ST := rfl
@[simp] theorem State.takeDraw_M : (s.takeDraw).M = s.M := rfl
@[simp] theorem State.takeDraw_FB : (s.takeDraw).FB = s.FB := rfl
@[simp] theorem State.takeDraw_K : (s.takeDraw).K = s.K := rfl
@[simp] theorem State.takeDraw_dirty : (s.takeDraw).dirty = s.dirty := rfl
@[simp] theorem State.takeDraw_status : (s.takeDraw).status = s.status := rfl
@[simp] theorem State.takeDraw_env : (s.takeDraw).env = { s.env with draws := s.env.draws + 1 } := rfl

@[simp] theorem State.withPending_V (ops : List Op) : (s.withPending ops).V = s.V := rfl
@[simp] theorem State.withPending_I (ops : List Op) : (s.withPending ops).I = s.I := rfl
@[simp] theorem State.withPending_pc (ops : List Op) : (s.withPending ops).pc = s.pc := rfl
@[simp] theorem State.withPending_SP (ops : List Op) : (s.withPending ops).SP = s.SP := rfl
@[simp] theorem State.withPending_S (ops : List Op) : (s.withPending ops).S = s.S := rfl
@[simp] theorem State.withPending_DT (ops : List Op) : (s.withPending ops).DT = s.DT := rfl
@[simp] theorem State.withPending_ST (ops : List Op) : (s.withPending ops).ST = s.ST := rfl
@[simp] theorem State.withPending_M (ops : List Op) : (s.withPending ops).M = s.M := rfl
@[simp] theorem State.withPending_FB (ops : List Op) : (s.withPending ops).FB = s.FB := rfl
@[simp] theorem State.withPending_K (ops : List Op) : (s.withPending ops).K = s.K := rfl
@[simp] theorem State.withPending_dirty (ops : List Op) : (s.withPending ops).dirty = s.dirty := rfl
@[simp] theorem State.withPending_status (ops : List Op) : (s.withPending ops).status = s.status := rfl
@[simp] theorem State.withPending_env (ops : List Op) : (s.withPending ops).env = { s.env with pending := ops } := rfl

@[simp] theorem State.reg_eq (x : Reg) : s.reg x = s.V[x] := rfl

/-- Two states with the same fields are the same state. -/
theorem State.eq_of_fields (t : State) (hV : s.V = t.V) (hI : s.I = t.I) (hpc : s.pc = t.pc) (hSP : s.SP = t.SP)
    (hS : s.S = t.S) (hDT : s.DT = t.DT) (hST : s.ST = t.ST) (hM : s.M = t.M) (hFB : s.FB = t.FB) (hK : s.K = t.K)
    (hd : s.dirty = t.dirty) (hst : s.status = t.status) (he : s.env = t.env) : s = t := by
  cases s; cases t; simp_all

/-- A register after a write: the written one, or as before. -/
theorem State.setV_getElem (x r : Reg) (b : Byte) : (s.setV x b).V[r] = if x = r then b else s.V[r] := by
  simp [Vector.getElem_set, Fin.ext_iff]

/-- A register after a result and a flag: the flag in VF, the result in the destination, or as before. -/
theorem State.setResultFlag_getElem (x r : Reg) (b : Byte) (f : Bool) :
    (s.setResultFlag x b f).V[r] = if r = VF then flagByte f else if x = r then b else s.V[r] := by
  by_cases h : r = VF
  · subst h; simp
  · have h' : (15 : Nat) ≠ r.val := fun e => h (Fin.ext e.symm)
    simp [Vector.getElem_set, Fin.ext_iff, h', h'.symm]

/-- Memory of the state after reset. -/
@[simp] theorem State.reset_M : State.reset.M = [] := rfl
@[simp] theorem State.reset_pc : State.reset.pc = 0x200 := rfl
@[simp] theorem State.reset_status : State.reset.status = .running := rfl

end Sys2Proof.Machine
end

