-- ==== Sys2Proof/Laws/Ops.lean ====
section
/-!
SUPPORT. One lemma for each shared operation that says once what it can do: range checks, guarded accesses, fetch, the
call stack, the key choice.
-/
namespace Sys2Proof.Machine

/-! ### Range checks -/

theorem readCheck_eq (a : Nat) : readCheck a = if 0xFFF < a then some .addressRange else none := rfl

theorem writeCheck_eq (a : Nat) :
    writeCheck a = if 0xFFF < a then some .addressRange else if a < 0x200 then some .reservedWrite else none := by
  simp [writeCheck, Config.reservedWriteFaults]

/-- No fault: every address passes. -/
theorem firstFault_eq_none (check : Nat → Option Cause) (a n : Nat) :
    firstFault check a n = none ↔ ∀ k, k < n → check (a + k) = none := by
  induction n generalizing a with
  | zero => simp [firstFault]
  | succ n ih =>
    cases h : check a with
    | some c =>
      simp only [firstFault, h]
      constructor
      · intro e; cases e
      · intro e; simpa [h] using e 0 (by omega)
    | none =>
      simp only [firstFault, h, ih]
      constructor
      · intro e k hk
        cases k with
        | zero => simpa using h
        | succ k => rw [Nat.add_comm k 1, ← Nat.add_assoc]; exact e k (by omega)
      · intro e k hk
        rw [Nat.add_assoc, Nat.add_comm 1 k]; exact e (k + 1) (by omega)

/-- A fault: the first address that fails, with every one before it passing. -/
theorem firstFault_eq_some (check : Nat → Option Cause) (a n : Nat) (c : Cause) (e : Nat) :
    firstFault check a n = some (c, e) ↔
      ∃ k, k < n ∧ e = a + k ∧ check e = some c ∧ ∀ j, j < k → check (a + j) = none := by
  induction n generalizing a with
  | zero => simp [firstFault]
  | succ n ih =>
    cases h : check a with
    | some d =>
      simp only [firstFault, h, Option.some.injEq, Prod.mk.injEq]
      constructor
      · rintro ⟨rfl, rfl⟩; exact ⟨0, by omega, rfl, h, by omega⟩
      · rintro ⟨k, hk, rfl, hc, hj⟩
        cases k with
        | zero => simp_all
        | succ k => simpa [h] using hj 0 (by omega)
    | none =>
      simp only [firstFault, h, ih]
      constructor
      · rintro ⟨k, hk, rfl, hc, hj⟩
        refine ⟨k + 1, by omega, by omega, hc, fun j hj' => ?_⟩
        cases j with
        | zero => simpa using h
        | succ j => rw [Nat.add_comm j 1, ← Nat.add_assoc]; exact hj j (by omega)
      · rintro ⟨k, hk, rfl, hc, hj⟩
        cases k with
        | zero => simp [h] at hc
        | succ k =>
          refine ⟨k, by omega, by omega, hc, fun j hj' => ?_⟩
          rw [Nat.add_assoc, Nat.add_comm 1 j]; exact hj (j + 1) (by omega)

/-- Reads pass exactly when the last address is at most 0xFFF. -/
theorem firstFault_read_none (a n : Nat) : firstFault readCheck a n = none ↔ n = 0 ∨ a + n ≤ 0x1000 := by
  rw [firstFault_eq_none]
  constructor
  · intro h
    rcases Nat.eq_zero_or_pos n with h0 | h0
    · exact .inl h0
    · have := h (n - 1) (by omega)
      simp only [readCheck, ite_eq_right_iff, reduceCtorEq, imp_false] at this
      omega
  · rintro h k hk
    simp only [readCheck, ite_eq_right_iff, reduceCtorEq, imp_false]
    omega

/-- Writes pass exactly when they stay in the program region. -/
theorem firstFault_write_none (a n : Nat) :
    firstFault writeCheck a n = none ↔ n = 0 ∨ (0x200 ≤ a ∧ a + n ≤ 0x1000) := by
  rw [firstFault_eq_none]
  constructor
  · intro h
    rcases Nat.eq_zero_or_pos n with h0 | h0
    · exact .inl h0
    · have h1 := h 0 h0
      have h2 := h (n - 1) (by omega)
      rw [writeCheck_eq] at h1 h2
      refine .inr ⟨?_, ?_⟩
      · by_contra hc
        split at h1
        · cases h1
        · rw [if_pos (by omega)] at h1; cases h1
      · by_contra hc
        rw [if_pos (by omega)] at h2; cases h2
  · rintro h k hk
    rw [writeCheck_eq, if_neg (by omega), if_neg (by omega)]

/-- The first read above 0xFFF: the base, or 0x1000. -/
theorem firstFault_read_some (a n : Nat) (h0 : n ≠ 0) (h : 0x1000 < a + n) :
    firstFault readCheck a n = some (.addressRange, max a 0x1000) := by
  rw [firstFault_eq_some]
  refine ⟨max a 0x1000 - a, by omega, by omega, ?_, fun j hj => ?_⟩
  · simp only [readCheck]; rw [if_pos (by omega)]
  · simp only [readCheck]; rw [if_neg (by omega)]

/-- The first write below 0x200 is the base. -/
theorem firstFault_write_reserved (a n : Nat) (h0 : n ≠ 0) (h : a < 0x200) :
    firstFault writeCheck a n = some (.reservedWrite, a) := by
  rw [firstFault_eq_some]
  refine ⟨0, by omega, rfl, ?_, by omega⟩
  rw [writeCheck_eq, if_neg (by omega), if_pos h]

/-- The first write above 0xFFF: the base, or 0x1000. -/
theorem firstFault_write_range (a n : Nat) (h0 : n ≠ 0) (h1 : 0x200 ≤ a) (h : 0x1000 < a + n) :
    firstFault writeCheck a n = some (.addressRange, max a 0x1000) := by
  rw [firstFault_eq_some]
  refine ⟨max a 0x1000 - a, by omega, by omega, ?_, fun j hj => ?_⟩
  · rw [writeCheck_eq, if_pos (by omega)]
  · rw [writeCheck_eq, if_neg (by omega), if_neg (by omega)]

/-! ### Raising and guarding -/

theorem raise_eq (c : Cause) (info : Word) (s : State) : raise c info s = .next (s.setStatus (.halted c info)) := rfl

/-- A guarded instruction answers its result, or the fault of its first offending access. -/
theorem guarded_cases (f : Option (Cause × Nat)) (s t : State) :
    (f = none ∧ guarded f s t = .next t) ∨
      ∃ c a, f = some (c, a) ∧ guarded f s t = .next (s.setStatus (.halted c (BitVec.ofNat 16 a))) := by
  rcases f with _ | ⟨c, a⟩
  · exact .inl ⟨rfl, rfl⟩
  · exact .inr ⟨c, a, rfl, rfl⟩

/-! ### Fetch -/

theorem fetch_ok (s : State) (h : s.pc.toNat ≤ 0xFFE) :
    fetch s = .ok (opcodeOfBytes (s.M.read s.pc.toNat) (s.M.read (s.pc.toNat + 1))) := by
  unfold fetch
  rw [(firstFault_read_none s.pc.toNat 2).2 (.inr (by omega))]

theorem fetch_error (s : State) (h : 0xFFE < s.pc.toNat) : fetch s = .error (max s.pc.toNat 0x1000) := by
  unfold fetch
  rw [firstFault_read_some s.pc.toNat 2 (by omega) (by omega)]

/-- A successful fetch comes from a pc of at most 0xFFE. -/
theorem fetch_ok_pc (s : State) (op : Word) (h : fetch s = .ok op) : s.pc.toNat ≤ 0xFFE := by
  by_contra hc
  rw [fetch_error s (by omega)] at h
  cases h

/-! ### The call stack -/

/-- Push on a stack that is not full. -/
theorem State.push_some (v : Word) (s : State) (h : s.SP.val < 16) :
    s.push v = some (s.setStack ⟨s.SP.val + 1, by omega⟩ (s.S.set s.SP.val v)) := by
  simp [State.push, h]

/-- Push on a full stack. -/
theorem State.push_none (v : Word) (s : State) (h : s.SP.val = 16) : s.push v = none := by
  simp [State.push, h]

/-- Pop from a stack that is not empty. -/
theorem State.pop_some (s : State) (h : 0 < s.SP.val) :
    s.pop = some (s.S[s.SP.val - 1]'(by omega), s.setStack ⟨s.SP.val - 1, by omega⟩ s.S) := by
  simp [State.pop, h]

/-- Pop from an empty stack. -/
theorem State.pop_none (s : State) (h : s.SP.val = 0) : s.pop = none := by
  simp [State.pop, h]

/-! ### Keys -/

theorem State.mem_pressedKeys (s : State) (k : Key) : k ∈ s.pressedKeys ↔ s.K[k] = true := by
  simp [State.pressedKeys]

/-- The chosen key is a member of the set, whatever the free choice. -/
theorem chooseKey_mem (l : List Key) (k : Key) (h : chooseKey l = some k) : k ∈ l := by
  match l, h with
  | [j], h => simp only [chooseKey, Option.some.injEq] at h; simp [h]
  | i :: j :: ks, h =>
    simp only [chooseKey, Option.some.injEq] at h
    rw [← h]
    exact List.getElem_mem _

/-- There is no choice exactly when no key is pressed. -/
theorem chooseKey_none (l : List Key) : chooseKey l = none ↔ l = [] := by
  match l with
  | [] => simp [chooseKey]
  | [_] => simp [chooseKey]
  | _ :: _ :: _ => simp [chooseKey]

/-- A key index in a register is in range exactly when the value is at most 15. -/
theorem keyOperand_cases (b : Byte) :
    (∃ h : b.toNat < 16, keyOperand b = some ⟨b.toNat, h⟩) ∨ (16 ≤ b.toNat ∧ keyOperand b = none) := by
  by_cases h : b.toNat < 16
  · exact .inl ⟨h, by simp [keyOperand, h]⟩
  · exact .inr ⟨by omega, by simp [keyOperand, h]⟩

end Sys2Proof.Machine
end

