-- ==== Sys2Proof/Laws/Display.lean ====
section
/-!
SUPPORT. What drawing a sprite does to each pixel. The loops of Dxyn visit the pixels of a list in which none occurs
twice (at most 8 columns of 64, at most 32 rows of 32), so the drawn screen is the old one XORed with that list.
-/
namespace Sys2Proof.Machine

/-- The pixels that the 1 bits of one sprite row meet, left to right. -/
def rowPixels (row : Byte) (px0 : Nat) (py : Fin 32) : List (Fin 64 × Fin 32) :=
  ((List.range 8).filter (fun c => row.getLsbD (7 - c))).map (fun c => (Fin.ofNat 64 (px0 + c), py))

/-- The pixels that the 1 bits of a sprite meet. -/
def spritePixels : List Byte → Nat → Nat → List (Fin 64 × Fin 32)
  | [], _, _ => []
  | row :: rows, px0, py0 => rowPixels row px0 (Fin.ofNat 32 py0) ++ spritePixels rows px0 (py0 + 1)

/-- Visiting a list of pixels. -/
def drawAll (d : Drawing) (l : List (Fin 64 × Fin 32)) : Drawing := l.foldl (fun d p => drawPixel p.1 p.2 d) d

theorem Framebuffer.pixel_toggle (fb : Framebuffer) (px qx : Fin 64) (py qy : Fin 32) :
    (fb.toggle px py).pixel qx qy = if (qx, qy) = (px, py) then !fb.pixel px py else fb.pixel qx qy := by
  by_cases hx : qx = px
  · subst hx
    by_cases hy : qy = py
    · subst hy; simp [Framebuffer.toggle, Framebuffer.pixel]
    · have : py.val ≠ qy.val := fun e => hy (Fin.ext e.symm)
      simp [Framebuffer.toggle, Framebuffer.pixel, hy, this]
  · have : px.val ≠ qx.val := fun e => hx (Fin.ext e.symm)
    simp [Framebuffer.toggle, Framebuffer.pixel, hx, this]

@[simp] theorem Framebuffer.pixel_clear (px : Fin 64) (py : Fin 32) : Framebuffer.clear.pixel px py = false := by
  simp [Framebuffer.clear, Framebuffer.pixel]

/-- Two framebuffers with the same pixels are the same. -/
theorem Framebuffer.ext (a b : Framebuffer) (h : ∀ px py, a.pixel px py = b.pixel px py) : a = b := by
  apply Vector.ext
  intro i hi
  apply Vector.ext
  intro j hj
  exact h ⟨i, hi⟩ ⟨j, hj⟩

/-! ### The loops visit a list of pixels -/

theorem drawRow_eq (row : Byte) (px0 : Nat) (py : Fin 32) (d : Drawing) :
    drawRow row px0 py d = drawAll d (rowPixels row px0 py) := by
  unfold drawRow drawAll rowPixels
  rw [List.foldl_map, List.foldl_filter]
  rfl

theorem drawRows_eq (rows : List Byte) (px0 py0 : Nat) (d : Drawing) :
    drawRows rows px0 py0 d = drawAll d (spritePixels rows px0 py0) := by
  induction rows generalizing py0 d with
  | nil => rfl
  | cons row rows ih =>
    simp only [drawRows, spritePixels, ih, drawRow_eq]
    simp [drawAll]

/-! ### No pixel is visited twice -/

theorem mem_rowPixels (row : Byte) (px0 : Nat) (py : Fin 32) (q : Fin 64 × Fin 32) :
    q ∈ rowPixels row px0 py ↔ q.2 = py ∧ ∃ c, c < 8 ∧ row.getLsbD (7 - c) = true ∧ (px0 + c) % 64 = q.1.val := by
  simp only [rowPixels, List.mem_map, List.mem_filter, List.mem_range]
  constructor
  · rintro ⟨c, ⟨hc, hb⟩, rfl⟩
    exact ⟨rfl, c, hc, hb, by simp⟩
  · rintro ⟨h2, c, hc, hb, h1⟩
    exact ⟨c, ⟨hc, hb⟩, Prod.ext (Fin.ext (by simpa using h1)) h2.symm⟩

/-- A pixel the sprite meets: some row and column of the sprite with bit 1, wrapped onto the screen. -/
theorem mem_spritePixels (rows : List Byte) (px0 py0 : Nat) (q : Fin 64 × Fin 32) :
    q ∈ spritePixels rows px0 py0 ↔
      ∃ r, ∃ h : r < rows.length, ∃ c, c < 8 ∧ rows[r].getLsbD (7 - c) = true ∧
        (px0 + c) % 64 = q.1.val ∧ (py0 + r) % 32 = q.2.val := by
  induction rows generalizing py0 with
  | nil => simp [spritePixels]
  | cons row rows ih =>
    rw [spritePixels, List.mem_append, mem_rowPixels, ih]
    constructor
    · rintro (⟨h2, c, hc, hb, h1⟩ | ⟨r, hr, c, hc, hb, h1, h2⟩)
      · exact ⟨0, by simp, c, hc, by simpa using hb, h1, by rw [h2]; simp⟩
      · exact ⟨r + 1, by simp; omega, c, hc, by simpa using hb, h1, by rw [← h2]; congr 1; omega⟩
    · rintro ⟨r, hr, c, hc, hb, h1, h2⟩
      cases r with
      | zero => exact .inl ⟨Fin.ext (by simpa using h2.symm), c, hc, by simpa using hb, h1⟩
      | succ r =>
        refine .inr ⟨r, by simpa using hr, c, hc, by simpa using hb, h1, ?_⟩
        rw [← h2]; congr 1; omega

theorem rowPixels_nodup (row : Byte) (px0 : Nat) (py : Fin 32) : (rowPixels row px0 py).Nodup := by
  refine List.Nodup.map_on ?_ (List.nodup_range.filter _)
  intro a ha b hb h
  simp only [List.mem_filter, List.mem_range] at ha hb
  have := congrArg (fun p : Fin 64 × Fin 32 => p.1.val) h
  simp only [Fin.val_ofNat] at this
  omega

theorem spritePixels_nodup (rows : List Byte) (px0 py0 : Nat) (h : rows.length ≤ 32) :
    (spritePixels rows px0 py0).Nodup := by
  induction rows generalizing py0 with
  | nil => simp [spritePixels]
  | cons row rows ih =>
    simp only [List.length_cons] at h
    refine List.Nodup.append (rowPixels_nodup row px0 _) (ih (py0 + 1) (by omega)) ?_
    intro q h1 h2
    rw [mem_rowPixels] at h1
    obtain ⟨r, hr, -, -, -, -, h2⟩ := (mem_spritePixels rows px0 (py0 + 1) q).1 h2
    have h1 := congrArg Fin.val h1.1
    simp only [Fin.val_ofNat] at h1
    omega

/-! ### What visiting a list does -/

/-- Each pixel of the list is toggled, every other one is as before. -/
theorem drawAll_pixel (l : List (Fin 64 × Fin 32)) (hl : l.Nodup) (d : Drawing) (qx : Fin 64) (qy : Fin 32) :
    (drawAll d l).1.pixel qx qy = (d.1.pixel qx qy ^^ decide ((qx, qy) ∈ l)) := by
  induction l generalizing d with
  | nil => simp [drawAll]
  | cons p l ih =>
    obtain ⟨hp, hl⟩ := List.nodup_cons.1 hl
    have hstep : drawAll d (p :: l) = drawAll (drawPixel p.1 p.2 d) l := rfl
    rw [hstep, ih hl]
    simp only [drawPixel, Framebuffer.pixel_toggle]
    by_cases e : (qx, qy) = p
    · subst e; simp [hp]
    · simp only [List.mem_cons, e, if_false, false_or]

/-- The collision bit: set before, or some pixel of the list was set. -/
theorem drawAll_collision (l : List (Fin 64 × Fin 32)) (hl : l.Nodup) (d : Drawing) :
    (drawAll d l).2 = (d.2 || l.any (fun p => d.1.pixel p.1 p.2)) := by
  induction l generalizing d with
  | nil => simp [drawAll]
  | cons p l ih =>
    obtain ⟨hp, hl⟩ := List.nodup_cons.1 hl
    have hstep : drawAll d (p :: l) = drawAll (drawPixel p.1 p.2 d) l := rfl
    rw [hstep, ih hl]
    have hany : l.any (fun q => (drawPixel p.1 p.2 d).1.pixel q.1 q.2) = l.any (fun q => d.1.pixel q.1 q.2) := by
      rw [Bool.eq_iff_iff, List.any_eq_true, List.any_eq_true]
      have hq : ∀ q ∈ l, (drawPixel p.1 p.2 d).1.pixel q.1 q.2 = d.1.pixel q.1 q.2 := by
        intro q hq
        have e : ¬((q.1, q.2) = (p.1, p.2)) := by rintro e; exact hp (by rw [← (show q = p from e)]; exact hq)
        simp only [drawPixel, Framebuffer.pixel_toggle, e, if_false]
      exact ⟨fun ⟨q, h, h'⟩ => ⟨q, h, hq q h ▸ h'⟩, fun ⟨q, h, h'⟩ => ⟨q, h, (hq q h).symm ▸ h'⟩⟩
    rw [hany]
    simp [drawPixel, Bool.or_assoc]

/-- A drawn pixel (at most 32 rows): the old one, toggled where the sprite has a 1. -/
theorem drawRows_pixel (rows : List Byte) (px0 py0 : Nat) (h : rows.length ≤ 32) (d : Drawing) (qx : Fin 64)
    (qy : Fin 32) :
    (drawRows rows px0 py0 d).1.pixel qx qy = (d.1.pixel qx qy ^^ decide ((qx, qy) ∈ spritePixels rows px0 py0)) := by
  rw [drawRows_eq, drawAll_pixel _ (spritePixels_nodup rows px0 py0 h)]

/-- The collision bit of a drawn sprite (at most 32 rows). -/
theorem drawRows_collision (rows : List Byte) (px0 py0 : Nat) (h : rows.length ≤ 32) (d : Drawing) :
    (drawRows rows px0 py0 d).2 = (d.2 || (spritePixels rows px0 py0).any (fun p => d.1.pixel p.1 p.2)) := by
  rw [drawRows_eq, drawAll_collision _ (spritePixels_nodup rows px0 py0 h)]

@[simp] theorem State.spriteRows_length (s : State) (n : Nat) : (s.spriteRows n).length = n := by
  simp [State.spriteRows]

theorem State.spriteRows_getElem (s : State) (n r : Nat) (h : r < (s.spriteRows n).length) :
    (s.spriteRows n)[r] = s.M.read (s.I.toNat + r) := by
  simp [State.spriteRows, Memory.readBytes_getElem, State.dataAddr]

end Sys2Proof.Machine
end

