-- ==== Sys2Proof/Laws/Encoding.lean ====
section
/-!
SUPPORT. The fields of a word put together by format, a word as its fields, and a word's two bytes.
-/
namespace Sys2Proof

variable (h f : BitVec 4) (x y n : Fin 16) (kk : Byte) (nnn : Addr) (op : Word)

theorem nibble_toFin (v : Fin 16) : (nibble v).toFin = v := rfl
theorem nibble_of_toFin (b : BitVec 4) : nibble b.toFin = b := rfl

/-! ### Bits of a word of each format -/

theorem wordAddr_bit (i : Nat) :
    (wordAddr h nnn).getLsbD i = if i < 12 then nnn.getLsbD i else h.getLsbD (i - 12) :=
  (BitVec.getLsbD_append (x := h) (y := nnn)).trans (by split <;> simp_all)

theorem wordXKK_bit (i : Nat) :
    (wordXKK h x kk).getLsbD i =
      if i < 8 then kk.getLsbD i else if i < 12 then (nibble x).getLsbD (i - 8) else h.getLsbD (i - 12) := by
  refine (BitVec.getLsbD_append (x := h ++ nibble x) (y := kk)).trans ?_
  by_cases h1 : i < 8
  · simp [h1]
  · rw [BitVec.getLsbD_append]
    by_cases h2 : i < 12
    · have : i - 8 < 4 := by omega
      simp [h1, h2, this]
    · have : ¬ i - 8 < 4 := by omega
      simp [h1, h2, this, show i - 8 - 4 = i - 12 by omega]

theorem wordXYF_bit (i : Nat) :
    (wordXYF h x y f).getLsbD i =
      if i < 4 then f.getLsbD i else if i < 8 then (nibble y).getLsbD (i - 4)
      else if i < 12 then (nibble x).getLsbD (i - 8) else h.getLsbD (i - 12) := by
  refine (BitVec.getLsbD_append (x := h ++ nibble x) (y := nibble y ++ f)).trans ?_
  rw [BitVec.getLsbD_append, BitVec.getLsbD_append]
  by_cases h1 : i < 4
  · simp [h1, show i < 8 by omega]
  · by_cases h2 : i < 8
    · simp [h1, h2]
    · by_cases h3 : i < 12
      · simp [h1, h2, h3, show i - 8 < 4 by omega]
      · simp [h1, h2, h3, show ¬ i - 8 < 4 by omega, show i - 8 - 4 = i - 12 by omega]

/-! ### Fields as bit strings -/

theorem nibble_fieldX : nibble (fieldX op) = op.extractLsb' 8 4 := rfl
theorem nibble_fieldY : nibble (fieldY op) = op.extractLsb' 4 4 := rfl

/-- A register field whose bits are a number's is that number. -/
theorem toFin_eq_of_bits (b : BitVec 4) (v : Fin 16) (hb : b = nibble v) : b.toFin = v := by subst hb; rfl

/-! ### Fields of a word of format ADDR -/

@[simp] theorem fieldH_wordAddr : fieldH (wordAddr h nnn) = h := by
  refine BitVec.eq_of_getLsbD_eq fun i hi => ?_
  simp [fieldH, wordAddr_bit, hi, show ¬ 12 + i < 12 by omega]
@[simp] theorem fieldNNN_wordAddr : fieldNNN (wordAddr h nnn) = nnn := by
  refine BitVec.eq_of_getLsbD_eq fun i hi => ?_
  simp [fieldNNN, wordAddr_bit, hi]

/-! ### Fields of a word of format XKK and XFF -/

@[simp] theorem fieldH_wordXKK : fieldH (wordXKK h x kk) = h := by
  refine BitVec.eq_of_getLsbD_eq fun i hi => ?_
  simp [fieldH, wordXKK_bit, hi, show ¬ 12 + i < 8 by omega, show ¬ 12 + i < 12 by omega]
@[simp] theorem fieldX_wordXKK : fieldX (wordXKK h x kk) = x := by
  refine toFin_eq_of_bits _ x (BitVec.eq_of_getLsbD_eq fun i hi => ?_)
  simp [wordXKK_bit, hi, show ¬ 8 + i < 8 by omega, show 8 + i < 12 by omega]
@[simp] theorem fieldKK_wordXKK : fieldKK (wordXKK h x kk) = kk := by
  refine BitVec.eq_of_getLsbD_eq fun i hi => ?_
  simp [fieldKK, wordXKK_bit, hi]

/-! ### Fields of a word of format XYF and XYN -/

@[simp] theorem fieldH_wordXYF : fieldH (wordXYF h x y f) = h := by
  refine BitVec.eq_of_getLsbD_eq fun i hi => ?_
  simp [fieldH, wordXYF_bit, hi, show ¬ 12 + i < 4 by omega, show ¬ 12 + i < 8 by omega, show ¬ 12 + i < 12 by omega]
@[simp] theorem fieldX_wordXYF : fieldX (wordXYF h x y f) = x := by
  refine toFin_eq_of_bits _ x (BitVec.eq_of_getLsbD_eq fun i hi => ?_)
  simp [wordXYF_bit, hi, show ¬ 8 + i < 4 by omega, show ¬ 8 + i < 8 by omega, show 8 + i < 12 by omega]
@[simp] theorem fieldY_wordXYF : fieldY (wordXYF h x y f) = y := by
  refine toFin_eq_of_bits _ y (BitVec.eq_of_getLsbD_eq fun i hi => ?_)
  simp [wordXYF_bit, hi, show ¬ 4 + i < 4 by omega, show 4 + i < 8 by omega]
@[simp] theorem fieldF_wordXYF : fieldF (wordXYF h x y f) = f := by
  refine BitVec.eq_of_getLsbD_eq fun i hi => ?_
  simp [fieldF, wordXYF_bit, hi]
@[simp] theorem fieldN_wordXYF : fieldN (wordXYF h x y (nibble n)) = n :=
  toFin_eq_of_bits _ n (fieldF_wordXYF h (nibble n) x y)

/-! ### A word is its fields -/

theorem word_eq_addr : op = wordAddr (fieldH op) (fieldNNN op) := by
  refine BitVec.eq_of_getLsbD_eq fun i hi => ?_
  rw [wordAddr_bit]
  split
  · simp [fieldNNN, *]
  · simp [fieldH, show i - 12 < 4 by omega, show 12 + (i - 12) = i by omega]

theorem word_eq_xkk : op = wordXKK (fieldH op) (fieldX op) (fieldKK op) := by
  refine BitVec.eq_of_getLsbD_eq fun i hi => ?_
  rw [wordXKK_bit, nibble_fieldX]
  split
  · simp [fieldKK, *]
  · split
    · simp [show i - 8 < 4 by omega, show 8 + (i - 8) = i by omega]
    · simp [fieldH, show i - 12 < 4 by omega, show 12 + (i - 12) = i by omega]

theorem word_eq_xyf : op = wordXYF (fieldH op) (fieldX op) (fieldY op) (fieldF op) := by
  refine BitVec.eq_of_getLsbD_eq fun i hi => ?_
  rw [wordXYF_bit, nibble_fieldX, nibble_fieldY]
  split
  · simp [fieldF, *]
  · split
    · simp [show i - 4 < 4 by omega, show 4 + (i - 4) = i by omega]
    · split
      · simp [show i - 8 < 4 by omega, show 8 + (i - 8) = i by omega]
      · simp [fieldH, show i - 12 < 4 by omega, show 12 + (i - 12) = i by omega]

theorem nibble_fieldN : nibble (fieldN op) = fieldF op := rfl

/-! ### The bytes of a word -/

/-- The two bytes of a word give the word back. -/
@[simp] theorem opcodeOfBytes_bytes : opcodeOfBytes (op.extractLsb' 8 8) (op.extractLsb' 0 8) = op := by
  ext i hi
  rw [← BitVec.getLsbD_eq_getElem, ← BitVec.getLsbD_eq_getElem]
  refine (BitVec.getLsbD_append (x := op.extractLsb' 8 8) (y := op.extractLsb' 0 8)).trans ?_
  by_cases h : i < 8
  · simp [h]
  · simp [h, show i - 8 < 8 by omega, show 8 + (i - 8) = i by omega]

theorem bytesOfWord_eq : bytesOfWord op = [op.extractLsb' 8 8, op.extractLsb' 0 8] := rfl

/-- Decoding a word's bytes is decoding the word. -/
theorem decodeBytes_bytesOfWord (i : Instr) (h : decode op = .ok i) (rest : List Byte) :
    decodeBytes (bytesOfWord op ++ rest) = .ok (i, rest) := by
  simp [decodeBytes, bytesOfWord, h]

end Sys2Proof
end

