-- ==== Sys2Proof/Laws/PerInstr.lean ====
section
/-!
SUPPORT. Statements about every instruction as syntax, one lemma per constructor. Family TableRow: the encoder's word of an
instruction lies in its row of spec/opcode_table.json (the row's match under the row's mask), for every operand.
-/
namespace Sys2Proof.Laws

/-! ### Words under the masks of the table -/

theorem wordAddr_mask (h : BitVec 4) (nnn : Addr) : wordAddr h nnn &&& 0xF000#16 = wordAddr h 0#12 := by
  refine BitVec.eq_of_getLsbD_eq fun i hi => ?_
  rw [BitVec.getLsbD_and, wordAddr_bit, wordAddr_bit]
  interval_cases i <;> simp

theorem wordXKK_mask (h : BitVec 4) (x : Reg) (kk : Byte) : wordXKK h x kk &&& 0xF000#16 = wordAddr h 0#12 := by
  refine BitVec.eq_of_getLsbD_eq fun i hi => ?_
  rw [BitVec.getLsbD_and, wordXKK_bit, wordAddr_bit]
  interval_cases i <;> simp

theorem wordXFF_mask (h : BitVec 4) (x : Reg) (ff : Byte) : wordXKK h x ff &&& 0xF0FF#16 = wordXKK h 0 ff := by
  refine BitVec.eq_of_getLsbD_eq fun i hi => ?_
  rw [BitVec.getLsbD_and, wordXKK_bit, wordXKK_bit]
  interval_cases i <;> simp [nibble]

theorem wordXYF_mask (h : BitVec 4) (x y : Reg) (f : BitVec 4) :
    wordXYF h x y f &&& 0xF00F#16 = wordXYF h 0 0 f := by
  refine BitVec.eq_of_getLsbD_eq fun i hi => ?_
  rw [BitVec.getLsbD_and, wordXYF_bit, wordXYF_bit]
  interval_cases i <;> simp [nibble]

theorem wordXYN_mask (h : BitVec 4) (x y : Reg) (f : BitVec 4) :
    wordXYF h x y f &&& 0xF000#16 = wordAddr h 0#12 := by
  refine BitVec.eq_of_getLsbD_eq fun i hi => ?_
  rw [BitVec.getLsbD_and, wordXYF_bit, wordAddr_bit]
  interval_cases i <;> simp

namespace TableRow

/-- The mask and the match of the instruction's row of spec/opcode_table.json. -/
def row : Instr → Word × Word
  | .cls => (0xFFFF#16, 0x00E0#16)
  | .ret => (0xFFFF#16, 0x00EE#16)
  | .jp _ => (0xF000#16, 0x1000#16)
  | .call _ => (0xF000#16, 0x2000#16)
  | .seByte _ _ => (0xF000#16, 0x3000#16)
  | .sneByte _ _ => (0xF000#16, 0x4000#16)
  | .seReg _ _ => (0xF00F#16, 0x5000#16)
  | .ldByte _ _ => (0xF000#16, 0x6000#16)
  | .addByte _ _ => (0xF000#16, 0x7000#16)
  | .ldReg _ _ => (0xF00F#16, 0x8000#16)
  | .orReg _ _ => (0xF00F#16, 0x8001#16)
  | .andReg _ _ => (0xF00F#16, 0x8002#16)
  | .xorReg _ _ => (0xF00F#16, 0x8003#16)
  | .addReg _ _ => (0xF00F#16, 0x8004#16)
  | .subReg _ _ => (0xF00F#16, 0x8005#16)
  | .shr _ _ => (0xF00F#16, 0x8006#16)
  | .subnReg _ _ => (0xF00F#16, 0x8007#16)
  | .shl _ _ => (0xF00F#16, 0x800E#16)
  | .sneReg _ _ => (0xF00F#16, 0x9000#16)
  | .ldI _ => (0xF000#16, 0xA000#16)
  | .jpV0 _ => (0xF000#16, 0xB000#16)
  | .rnd _ _ => (0xF000#16, 0xC000#16)
  | .drw _ _ _ => (0xF000#16, 0xD000#16)
  | .skp _ => (0xF0FF#16, 0xE09E#16)
  | .sknp _ => (0xF0FF#16, 0xE0A1#16)
  | .ldVxDT _ => (0xF0FF#16, 0xF007#16)
  | .ldVxK _ => (0xF0FF#16, 0xF00A#16)
  | .ldDTVx _ => (0xF0FF#16, 0xF015#16)
  | .ldSTVx _ => (0xF0FF#16, 0xF018#16)
  | .addI _ => (0xF0FF#16, 0xF01E#16)
  | .ldF _ => (0xF0FF#16, 0xF029#16)
  | .ldB _ => (0xF0FF#16, 0xF033#16)
  | .storeRegs _ => (0xF0FF#16, 0xF055#16)
  | .loadRegs _ => (0xF0FF#16, 0xF065#16)

/-- The encoder's word matches the row. -/
def Statement (i : Instr) : Prop := encode i &&& (row i).1 = (row i).2

theorem cls : Statement .cls := by unfold Statement; decide
theorem ret : Statement .ret := by unfold Statement; decide
theorem jp (nnn : Addr) : Statement (.jp nnn) := (wordAddr_mask _ nnn).trans rfl
theorem call (nnn : Addr) : Statement (.call nnn) := (wordAddr_mask _ nnn).trans rfl
theorem seByte (x : Reg) (kk : Byte) : Statement (.seByte x kk) := (wordXKK_mask _ x kk).trans rfl
theorem sneByte (x : Reg) (kk : Byte) : Statement (.sneByte x kk) := (wordXKK_mask _ x kk).trans rfl
theorem seReg (x : Reg) (y : Reg) : Statement (.seReg x y) := (wordXYF_mask _ x y _).trans rfl
theorem ldByte (x : Reg) (kk : Byte) : Statement (.ldByte x kk) := (wordXKK_mask _ x kk).trans rfl
theorem addByte (x : Reg) (kk : Byte) : Statement (.addByte x kk) := (wordXKK_mask _ x kk).trans rfl
theorem ldReg (x : Reg) (y : Reg) : Statement (.ldReg x y) := (wordXYF_mask _ x y _).trans rfl
theorem orReg (x : Reg) (y : Reg) : Statement (.orReg x y) := (wordXYF_mask _ x y _).trans rfl
theorem andReg (x : Reg) (y : Reg) : Statement (.andReg x y) := (wordXYF_mask _ x y _).trans rfl
theorem xorReg (x : Reg) (y : Reg) : Statement (.xorReg x y) := (wordXYF_mask _ x y _).trans rfl
theorem addReg (x : Reg) (y : Reg) : Statement (.addReg x y) := (wordXYF_mask _ x y _).trans rfl
theorem subReg (x : Reg) (y : Reg) : Statement (.subReg x y) := (wordXYF_mask _ x y _).trans rfl
theorem shr (x : Reg) (y : Reg) : Statement (.shr x y) := (wordXYF_mask _ x y _).trans rfl
theorem subnReg (x : Reg) (y : Reg) : Statement (.subnReg x y) := (wordXYF_mask _ x y _).trans rfl
theorem shl (x : Reg) (y : Reg) : Statement (.shl x y) := (wordXYF_mask _ x y _).trans rfl
theorem sneReg (x : Reg) (y : Reg) : Statement (.sneReg x y) := (wordXYF_mask _ x y _).trans rfl
theorem ldI (nnn : Addr) : Statement (.ldI nnn) := (wordAddr_mask _ nnn).trans rfl
theorem jpV0 (nnn : Addr) : Statement (.jpV0 nnn) := (wordAddr_mask _ nnn).trans rfl
theorem rnd (x : Reg) (kk : Byte) : Statement (.rnd x kk) := (wordXKK_mask _ x kk).trans rfl
theorem drw (x : Reg) (y : Reg) (n : Fin 16) : Statement (.drw x y n) := (wordXYN_mask _ x y _).trans rfl
theorem skp (x : Reg) : Statement (.skp x) := (wordXFF_mask _ x _).trans rfl
theorem sknp (x : Reg) : Statement (.sknp x) := (wordXFF_mask _ x _).trans rfl
theorem ldVxDT (x : Reg) : Statement (.ldVxDT x) := (wordXFF_mask _ x _).trans rfl
theorem ldVxK (x : Reg) : Statement (.ldVxK x) := (wordXFF_mask _ x _).trans rfl
theorem ldDTVx (x : Reg) : Statement (.ldDTVx x) := (wordXFF_mask _ x _).trans rfl
theorem ldSTVx (x : Reg) : Statement (.ldSTVx x) := (wordXFF_mask _ x _).trans rfl
theorem addI (x : Reg) : Statement (.addI x) := (wordXFF_mask _ x _).trans rfl
theorem ldF (x : Reg) : Statement (.ldF x) := (wordXFF_mask _ x _).trans rfl
theorem ldB (x : Reg) : Statement (.ldB x) := (wordXFF_mask _ x _).trans rfl
theorem storeRegs (x : Reg) : Statement (.storeRegs x) := (wordXFF_mask _ x _).trans rfl
theorem loadRegs (x : Reg) : Statement (.loadRegs x) := (wordXFF_mask _ x _).trans rfl

end TableRow

end Sys2Proof.Laws
end

