-- ==== Sys2Proof/Laws/Instructions.lean ====
section
/-!
SUPPORT. What words an instruction has, from the mask of its format; what each instruction that checks something answers,
case by case; and the two shapes of every answer: status kept, or a fault alone.
-/
namespace Sys2Proof.Machine

/-! ### A word under a mask shows its fixed fields -/

theorem hasPattern_of_h (p : Word) (build : Word → Instr)
    (h : ∀ op, fieldH op = fieldH p → decode op = .ok (build op)) : HasPattern 0xF000 p build := fun op e => by
  have e : op &&& 0xF000#16 = p := e
  refine h op ?_
  rw [word_eq_addr op, Laws.wordAddr_mask] at e
  rw [← e, fieldH_wordAddr]

theorem hasPattern_of_xff (p : Word) (build : Word → Instr)
    (h : ∀ op, fieldH op = fieldH p → fieldKK op = fieldKK p → decode op = .ok (build op)) :
    HasPattern 0xF0FF p build := fun op e => by
  have e : op &&& 0xF0FF#16 = p := e
  rw [word_eq_xkk op, Laws.wordXFF_mask] at e
  exact h op (by rw [← e, fieldH_wordXKK]) (by rw [← e, fieldKK_wordXKK])

theorem hasPattern_of_xyf (p : Word) (build : Word → Instr)
    (h : ∀ op, fieldH op = fieldH p → fieldF op = fieldF p → decode op = .ok (build op)) :
    HasPattern 0xF00F p build := fun op e => by
  have e : op &&& 0xF00F#16 = p := e
  rw [word_eq_xyf op, Laws.wordXYF_mask] at e
  exact h op (by rw [← e, fieldH_wordXYF]) (by rw [← e, fieldF_wordXYF])

/-! ### Registers kept -/

theorem sameRegsBut_setV (x : Reg) (b : Byte) (s : State) : SameRegsBut [x] s (s.setV x b) := fun r hr => by
  rw [State.setV_getElem, if_neg fun e => hr (by simp [e])]

theorem sameRegsBut_setResultFlag (x : Reg) (b : Byte) (f : Bool) (s : State) :
    SameRegsBut [x, VF] s (s.setResultFlag x b f) := fun r hr => by
  simp only [List.mem_cons, List.not_mem_nil, or_false, not_or] at hr
  rw [State.setResultFlag_getElem, if_neg hr.2, if_neg (Ne.symm hr.1)]

/-! ### Frames -/

theorem onlyRegsAndPc_setRegs (v : Vector Byte 16) (s : State) : OnlyRegsAndPc s (s.setRegs v).advance :=
  ⟨rfl, fun _ => rfl⟩

theorem faultOnly_setStatus (c : Cause) (info : Word) (s : State) : FaultOnly c info s (s.setStatus (.halted c info)) :=
  ⟨rfl, fun _ => rfl⟩

/-! ### The call stack -/

theorem execRet_ok (s : State) (h : 0 < s.SP.val) :
    execRet s = .next ((s.setStack ⟨s.SP.val - 1, by omega⟩ s.S).setPC (s.S[s.SP.val - 1]'(by omega))) := by
  simp only [execRet, State.pop_some s h]

theorem execRet_empty (s : State) (h : s.SP.val = 0) :
    execRet s = .next (s.setStatus (.halted .stackUnderflow s.pc)) := by
  simp only [execRet, State.pop_none s h, raise_eq]

theorem execCall_ok (nnn : Addr) (s : State) (h : s.SP.val < 16) :
    execCall nnn s =
      .next ((s.setStack ⟨s.SP.val + 1, by omega⟩ (s.S.set s.SP.val (s.pc + 2))).setPC (addrWord nnn)) := by
  simp only [execCall, State.push_some _ s h]

theorem execCall_full (nnn : Addr) (s : State) (h : s.SP.val = 16) :
    execCall nnn s = .next (s.setStatus (.halted .stackOverflow s.pc)) := by
  simp only [execCall, State.push_none _ s h, raise_eq]

/-! ### Drawing, storing and loading -/

theorem execDrw_ok (x y : Reg) (n : Fin 16) (s : State) (h : n.val = 0 ∨ s.I.toNat + n.val ≤ 0x1000) :
    execDrw x y n s =
      .next (((s.setFB (drawn x y n s).1).setFlag (drawn x y n s).2).setDirty true).advance := by
  simp only [execDrw, guarded, State.dataAddr, Nat.add_zero, (firstFault_read_none s.I.toNat n.val).2 h]

theorem execDrw_range (x y : Reg) (n : Fin 16) (s : State) (h0 : n.val ≠ 0) (h : 0x1000 < s.I.toNat + n.val) :
    execDrw x y n s =
      .next (s.setStatus (.halted .addressRange (BitVec.ofNat 16 (max s.I.toNat 0x1000)))) := by
  simp only [execDrw, guarded, State.dataAddr, Nat.add_zero, firstFault_read_some _ _ h0 h, raise_eq]

/-- The pixels the drawing visits are those `SpriteMeets` names. -/
theorem mem_spritePixels_iff_meets (s : State) (x y : Reg) (n : Fin 16) (px : Fin 64) (py : Fin 32) :
    (px, py) ∈ spritePixels (s.spriteRows n.val) s.V[x].toNat s.V[y].toNat ↔ SpriteMeets s x y n.val px py := by
  rw [mem_spritePixels]
  simp only [SpriteMeets, State.spriteRows_length]
  constructor
  · rintro ⟨r, hr, c, hc, hb, h1, h2⟩
    rw [State.spriteRows_getElem] at hb
    exact ⟨r, c, hr, hc, hb, h1, h2⟩
  · rintro ⟨r, c, hr, hc, hb, h1, h2⟩
    exact ⟨r, hr, c, hc, by rw [State.spriteRows_getElem]; exact hb, h1, h2⟩

theorem drawn_pixel (s : State) (x y : Reg) (n : Fin 16) (px : Fin 64) (py : Fin 32) :
    (drawn x y n s).1.pixel px py =
      (s.FB.pixel px py ^^ decide ((px, py) ∈ spritePixels (s.spriteRows n.val) s.V[x].toNat s.V[y].toNat)) := by
  simp only [drawn, State.reg_eq]
  rw [drawRows_pixel _ _ _ (by simp; omega)]

theorem drawn_collision (s : State) (x y : Reg) (n : Fin 16) :
    (drawn x y n s).2 = true ↔ ∃ px py, SpriteMeets s x y n.val px py ∧ s.FB.pixel px py = true := by
  simp only [drawn, State.reg_eq]
  rw [drawRows_collision _ _ _ (by simp; omega)]
  simp only [Bool.false_or, List.any_eq_true]
  constructor
  · rintro ⟨p, h, h'⟩; exact ⟨p.1, p.2, (mem_spritePixels_iff_meets s x y n p.1 p.2).1 h, h'⟩
  · rintro ⟨px, py, h, h'⟩; exact ⟨(px, py), (mem_spritePixels_iff_meets s x y n px py).2 h, h'⟩

theorem storeAtI_ok (bs : List Byte) (s : State) (h : 0x200 ≤ s.I.toNat) (h' : s.I.toNat + bs.length ≤ 0x1000) :
    storeAtI bs s = .next (s.setM (s.M.writeBytes s.I.toNat bs)).advance := by
  simp only [storeAtI, guarded, State.dataAddr, Nat.add_zero,
    (firstFault_write_none s.I.toNat bs.length).2 (.inr ⟨h, h'⟩)]

theorem storeAtI_reserved (bs : List Byte) (s : State) (h0 : bs.length ≠ 0) (h : s.I.toNat < 0x200) :
    storeAtI bs s = .next (s.setStatus (.halted .reservedWrite s.I)) := by
  simp only [storeAtI, guarded, State.dataAddr, Nat.add_zero, firstFault_write_reserved _ _ h0 h, raise_eq,
    BitVec.ofNat_toNat, BitVec.setWidth_eq]

theorem storeAtI_range (bs : List Byte) (s : State) (h0 : bs.length ≠ 0) (h : 0x200 ≤ s.I.toNat)
    (h' : 0x1000 < s.I.toNat + bs.length) :
    storeAtI bs s = .next (s.setStatus (.halted .addressRange (BitVec.ofNat 16 (max s.I.toNat 0x1000)))) := by
  simp only [storeAtI, guarded, State.dataAddr, Nat.add_zero, firstFault_write_range _ _ h0 h h', raise_eq]

/-- A store either lands whole, in the program region, or faults alone. -/
theorem storeAtI_cases (bs : List Byte) (h0 : bs.length ≠ 0) (s : State) :
    (0x200 ≤ s.I.toNat ∧ s.I.toNat + bs.length ≤ 0x1000 ∧
      storeAtI bs s = .next (s.setM (s.M.writeBytes s.I.toNat bs)).advance) ∨
    ∃ c info, storeAtI bs s = .next (s.setStatus (.halted c info)) := by
  rcases Nat.lt_or_ge s.I.toNat 0x200 with h | h
  · exact .inr ⟨_, _, storeAtI_reserved bs s h0 h⟩
  · rcases Nat.lt_or_ge 0x1000 (s.I.toNat + bs.length) with h' | h'
    · exact .inr ⟨_, _, storeAtI_range bs s h0 h h'⟩
    · exact .inl ⟨h, h', storeAtI_ok bs s h h'⟩

@[simp] theorem bcdDigits_length (v : Byte) : (bcdDigits v).length = 3 := rfl

@[simp] theorem State.regBlock_length (s : State) (x : Reg) : (s.regBlock x).length = x.val + 1 := by
  simp only [State.regBlock, List.length_take, Vector.length_toList]
  omega

theorem State.regBlock_getElem (s : State) (x : Reg) (j : Nat) (h : j < (s.regBlock x).length) :
    (s.regBlock x)[j] = s.V[j]'(by simp at h; omega) := by
  simp [State.regBlock]

theorem execLoadRegs_ok (x : Reg) (s : State) (h : s.I.toNat + x.val ≤ 0xFFF) :
    execLoadRegs x s = .next (s.setRegs (s.loadedRegs x)).advance := by
  simp only [execLoadRegs, guarded, State.dataAddr, Nat.add_zero,
    (firstFault_read_none s.I.toNat (x.val + 1)).2 (.inr (by omega))]

theorem execLoadRegs_range (x : Reg) (s : State) (h : 0xFFF < s.I.toNat + x.val) :
    execLoadRegs x s =
      .next (s.setStatus (.halted .addressRange (BitVec.ofNat 16 (max s.I.toNat 0x1000)))) := by
  simp only [execLoadRegs, guarded, State.dataAddr, Nat.add_zero,
    firstFault_read_some s.I.toNat (x.val + 1) (by omega) (by omega), raise_eq]

theorem State.loadedRegs_getElem (s : State) (x r : Reg) :
    (s.loadedRegs x)[r] = if r ≤ x then s.M.read (s.I.toNat + r.val) else s.V[r] := by
  simp [State.loadedRegs, State.dataAddr]

/-! ### Keys -/

theorem skipOnKey_ok (want : Bool) (x : Reg) (s : State) (h : s.V[x].toNat < 16) :
    skipOnKey want x s = .next (s.skipIf (s.K[s.V[x].toNat] == want)) := by
  have hk : keyOperand s.V[x] = some ⟨s.V[x].toNat, h⟩ := dif_pos h
  simp only [skipOnKey, State.reg_eq, hk]
  rfl

theorem skipOnKey_range (want : Bool) (x : Reg) (s : State) (h : 16 ≤ s.V[x].toNat) :
    skipOnKey want x s = .next (s.setStatus (.halted .keyRange (byteWord s.V[x]))) := by
  have hk : keyOperand s.V[x] = none := dif_neg (by omega)
  simp only [skipOnKey, State.reg_eq, hk, raise_eq]

theorem chooseKey_pressed (s : State) (k : Key) (h : s.K[k] = true) :
    ∃ j : Key, chooseKey s.pressedKeys = some j ∧ s.K[j] = true := by
  cases e : chooseKey s.pressedKeys with
  | none => exact absurd ((s.mem_pressedKeys k).2 h) (by rw [(chooseKey_none _).1 e]; simp)
  | some j => exact ⟨j, rfl, (s.mem_pressedKeys j).1 (chooseKey_mem _ _ e)⟩

theorem chooseKey_released (s : State) (h : ∀ k : Key, s.K[k] = false) : chooseKey s.pressedKeys = none := by
  rw [chooseKey_none, List.eq_nil_iff_forall_not_mem]
  intro k hk
  rw [s.mem_pressedKeys, h k] at hk
  cases hk

/-! ### The instructions that check something: their effect, or a fault alone -/

theorem exec_ret_cases (s : State) :
    (∃ h : 0 < s.SP.val, exec .ret s =
      .next ((s.setStack ⟨s.SP.val - 1, by omega⟩ s.S).setPC (s.S[s.SP.val - 1]'(by omega)))) ∨
    ∃ c info, exec .ret s = .next (s.setStatus (.halted c info)) := by
  rcases Nat.eq_zero_or_pos s.SP.val with e | e
  · exact .inr ⟨_, _, execRet_empty s e⟩
  · exact .inl ⟨e, execRet_ok s e⟩

theorem exec_call_cases (nnn : Addr) (s : State) :
    (∃ h : s.SP.val < 16, exec (.call nnn) s =
      .next ((s.setStack ⟨s.SP.val + 1, by omega⟩ (s.S.set s.SP.val (s.pc + 2))).setPC (addrWord nnn))) ∨
    ∃ c info, exec (.call nnn) s = .next (s.setStatus (.halted c info)) := by
  rcases Nat.lt_or_ge s.SP.val 16 with e | e
  · exact .inl ⟨e, execCall_ok nnn s e⟩
  · exact .inr ⟨_, _, execCall_full nnn s (by omega)⟩

theorem exec_drw_cases (x y : Reg) (n : Fin 16) (s : State) :
    exec (.drw x y n) s =
      .next (((s.setFB (drawn x y n s).1).setFlag (drawn x y n s).2).setDirty true).advance ∨
    ∃ c info, exec (.drw x y n) s = .next (s.setStatus (.halted c info)) := by
  rcases guarded_cases (firstFault readCheck (s.dataAddr 0) n.val) s
    (((s.setFB (drawn x y n s).1).setFlag (drawn x y n s).2).setDirty true).advance with ⟨-, e⟩ | ⟨c, a, -, e⟩
  · exact .inl e
  · exact .inr ⟨_, _, e⟩

theorem exec_ldB_cases (x : Reg) (s : State) :
    (0x200 ≤ s.I.toNat ∧ s.I.toNat + 3 ≤ 0x1000 ∧
      exec (.ldB x) s = .next (s.setM (s.M.writeBytes s.I.toNat (bcdDigits s.V[x]))).advance) ∨
    ∃ c info, exec (.ldB x) s = .next (s.setStatus (.halted c info)) :=
  storeAtI_cases (bcdDigits s.V[x]) (by simp) s

theorem exec_storeRegs_cases (x : Reg) (s : State) :
    (0x200 ≤ s.I.toNat ∧ s.I.toNat + (x.val + 1) ≤ 0x1000 ∧
      exec (.storeRegs x) s = .next (s.setM (s.M.writeBytes s.I.toNat (s.regBlock x))).advance) ∨
    ∃ c info, exec (.storeRegs x) s = .next (s.setStatus (.halted c info)) := by
  have h := storeAtI_cases (s.regBlock x) (by simp) s
  rwa [State.regBlock_length] at h

theorem exec_loadRegs_cases (x : Reg) (s : State) :
    exec (.loadRegs x) s = .next (s.setRegs (s.loadedRegs x)).advance ∨
    ∃ c info, exec (.loadRegs x) s = .next (s.setStatus (.halted c info)) := by
  rcases guarded_cases (firstFault readCheck (s.dataAddr 0) (x.val + 1)) s
    (s.setRegs (s.loadedRegs x)).advance with ⟨-, e⟩ | ⟨c, a, -, e⟩
  · exact .inl e
  · exact .inr ⟨_, _, e⟩

theorem exec_skp_cases (x : Reg) (s : State) :
    (∃ b, exec (.skp x) s = .next (s.skipIf b)) ∨
    ∃ c info, exec (.skp x) s = .next (s.setStatus (.halted c info)) := by
  rcases Nat.lt_or_ge s.V[x].toNat 16 with e | e
  · exact .inl ⟨_, skipOnKey_ok true x s e⟩
  · exact .inr ⟨_, _, skipOnKey_range true x s e⟩

theorem exec_sknp_cases (x : Reg) (s : State) :
    (∃ b, exec (.sknp x) s = .next (s.skipIf b)) ∨
    ∃ c info, exec (.sknp x) s = .next (s.setStatus (.halted c info)) := by
  rcases Nat.lt_or_ge s.V[x].toNat 16 with e | e
  · exact .inl ⟨_, skipOnKey_ok false x s e⟩
  · exact .inr ⟨_, _, skipOnKey_range false x s e⟩

theorem exec_ldVxK_cases (x : Reg) (s : State) :
    (∃ b, exec (.ldVxK x) s = .next (s.setV x b).advance) ∨ exec (.ldVxK x) s = .next s := by
  simp only [exec, execLdVxK]
  split
  · exact .inl ⟨_, rfl⟩
  · exact .inr rfl

/-! ### The two shapes of an answer -/

theorem guarded_shape (f : Option (Cause × Nat)) (s t u : State) (h : guarded f s t = .next u)
    (ht : t.status = s.status) : u.status = s.status ∨ ∃ c info, u = s.setStatus (.halted c info) := by
  rcases guarded_cases f s t with ⟨-, e⟩ | ⟨c, a, -, e⟩
  · rw [e] at h; cases h; exact .inl ht
  · rw [e] at h; cases h; exact .inr ⟨_, _, rfl⟩

theorem skipOnKey_shape (want : Bool) (x : Reg) (s t : State) (h : skipOnKey want x s = .next t) :
    t.status = s.status ∨ ∃ c info, t = s.setStatus (.halted c info) := by
  rcases Nat.lt_or_ge s.V[x].toNat 16 with e | e
  · rw [skipOnKey_ok want x s e] at h; cases h; exact .inl rfl
  · rw [skipOnKey_range want x s e] at h; cases h; exact .inr ⟨_, _, rfl⟩

/-- An instruction's answer keeps the status, or is the fault alone (R103, R104). -/
theorem exec_shape (i : Instr) (s t : State) (h : exec i s = .next t) :
    t.status = s.status ∨ ∃ c info, t = s.setStatus (.halted c info) := by
  cases i
  case ret =>
    rcases Nat.eq_zero_or_pos s.SP.val with e | e
    · rw [exec, execRet_empty s e] at h; cases h; exact .inr ⟨_, _, rfl⟩
    · rw [exec, execRet_ok s e] at h; cases h; exact .inl rfl
  case call nnn =>
    rcases Nat.lt_or_ge s.SP.val 16 with e | e
    · rw [exec, execCall_ok nnn s e] at h; cases h; exact .inl rfl
    · rw [exec, execCall_full nnn s (by omega)] at h; cases h; exact .inr ⟨_, _, rfl⟩
  case drw x y n => exact guarded_shape _ s _ t h rfl
  case ldB x => exact guarded_shape _ s _ t h rfl
  case storeRegs x => exact guarded_shape _ s _ t h rfl
  case loadRegs x => exact guarded_shape _ s _ t h rfl
  case skp x => exact skipOnKey_shape true x s t h
  case sknp x => exact skipOnKey_shape false x s t h
  case ldVxK x =>
    simp only [exec, execLdVxK] at h
    split at h <;> (cases h; exact .inl rfl)
  all_goals (cases h; exact .inl rfl)

end Sys2Proof.Machine
end

