-- ==== Sys2Proof/Laws/Interface.lean ====
section
/-!
SUPPORT. One lemma for each interface operation that says what it answers: loading, OP_CYCLE case by case, keys, the next
operation; and that memory after a load reads as R33 says.
-/
namespace Sys2Proof.Machine

variable (s : State) (rnd : Byte)

/-! ### Loading -/

theorem opCreate_ok (rom : List Byte) (h : rom.length ≤ 3584) : opCreate rom s = .next (created rom s.env) :=
  if_neg (Nat.not_lt.2 h)

theorem opCreate_error (rom : List Byte) (h : 3584 < rom.length) :
    opCreate rom s = .refused (.loadError rom.length) :=
  if_pos h

@[simp] theorem created_M (rom : List Byte) (e : Env) : (created rom e).M = Memory.writeBytes [] 0x200 rom := rfl
@[simp] theorem created_pc (rom : List Byte) (e : Env) : (created rom e).pc = 0x200 := rfl
@[simp] theorem created_S (rom : List Byte) (e : Env) : (created rom e).S = Vector.replicate 16 0 := rfl
@[simp] theorem created_status (rom : List Byte) (e : Env) : (created rom e).status = .running := rfl
@[simp] theorem created_env (rom : List Byte) (e : Env) : (created rom e).env = e := rfl

/-- A loaded ROM lists bytes of the program region only. -/
theorem created_region (rom : List Byte) (e : Env) (h : rom.length ≤ 3584) : (created rom e).M.InProgramRegion :=
  Memory.writeBytes_region [] 0x200 rom (fun c hc => absurd hc (by simp)) (by omega) (by omega)

/-! ### OP_CYCLE -/

theorem opCycle_halted (c : Cause) (info : Word) (h : s.status = .halted c info) : opCycle rnd s = .next s := by
  simp only [opCycle, h]

/-- A fetch that fails. -/
theorem opCycle_fetch_error (a : Nat) (h : s.status = .running) (hf : fetch s = .error a) :
    opCycle rnd s = .next ((s.withRnd rnd).setStatus (.halted .addressRange (BitVec.ofNat 16 a))) := by
  have hf : fetch (s.withRnd rnd) = .error a := hf
  simp only [opCycle, h, runInstruction, hf, raise_eq]

/-- A word that does not decode. -/
theorem opCycle_decode_error (op : Word) (r : Reject) (h : s.status = .running) (hf : fetch s = .ok op)
    (hd : decode op = .error r) :
    opCycle rnd s = .next ((s.withRnd rnd).setStatus (.halted .invalidInstruction op)) := by
  have hf : fetch (s.withRnd rnd) = .ok op := hf
  simp only [opCycle, h, runInstruction, hf, hd, raise_eq]

/-- A word that decodes. -/
theorem opCycle_exec (op : Word) (i : Instr) (h : s.status = .running) (hf : fetch s = .ok op)
    (hd : decode op = .ok i) : opCycle rnd s = exec i (s.withRnd rnd) := by
  have hf : fetch (s.withRnd rnd) = .ok op := hf
  simp only [opCycle, h, runInstruction, hf, hd]

/-- The value a running block's OP_CYCLE returns, from the status of its next state. -/
theorem resultOf_cycle (t : State) (h : s.status = .running) (ht : opCycle rnd s = .next t) :
    (t.status = .running → resultOf (.cycle rnd) s = .ok) ∧
      ∀ c info, t.status = .halted c info → resultOf (.cycle rnd) s = .fault c info := by
  have hp : perform (.cycle rnd) s = .next t := ht
  simp only [resultOf, h, hp, resultOfOutcome]
  exact ⟨fun e => by rw [e], fun c info e => by rw [e]⟩

/-! ### Keys -/

theorem opKey_ok (pressed : Bool) (k : Nat) (h : k < 16) : opKey pressed k s = .next (s.setKey ⟨k, h⟩ pressed) :=
  dif_pos h

theorem opKey_refused (pressed : Bool) (k : Nat) (h : 16 ≤ k) :
    opKey pressed k s = .refused (.inputContract k) :=
  dif_neg (by omega)

/-! ### The next operation -/

theorem step_pending (op : Op) (ops : List Op) : step (s.withPending (op :: ops)) = perform op (s.withPending ops) := rfl

theorem step_running (hp : s.env.pending = []) (h : s.status = .running) :
    step s = opCycle (Config.rndDraw s.env.draws) s.takeDraw := by
  simp only [step, nextOperation, hp, h]

theorem step_halted (c : Cause) (info : Word) (hp : s.env.pending = []) (h : s.status = .halted c info) :
    step s = .next s := by
  simp only [step, nextOperation, hp, h]

theorem withPending_self : s.withPending s.env.pending = s := rfl

/-- No instruction writes the environment's fields. -/
theorem exec_env (i : Instr) (s t : State) (h : exec i s = .next t) : t.env = s.env := by
  cases i
  case ret => rcases exec_ret_cases s with ⟨_, e⟩ | ⟨_, _, e⟩ <;> (rw [e] at h; cases h; rfl)
  case call nnn => rcases exec_call_cases nnn s with ⟨_, e⟩ | ⟨_, _, e⟩ <;> (rw [e] at h; cases h; rfl)
  case drw x y n => rcases exec_drw_cases x y n s with e | ⟨_, _, e⟩ <;> (rw [e] at h; cases h; rfl)
  case ldB x => rcases exec_ldB_cases x s with ⟨_, _, e⟩ | ⟨_, _, e⟩ <;> (rw [e] at h; cases h; rfl)
  case storeRegs x => rcases exec_storeRegs_cases x s with ⟨_, _, e⟩ | ⟨_, _, e⟩ <;> (rw [e] at h; cases h; rfl)
  case loadRegs x => rcases exec_loadRegs_cases x s with e | ⟨_, _, e⟩ <;> (rw [e] at h; cases h; rfl)
  case skp x => rcases exec_skp_cases x s with ⟨_, e⟩ | ⟨_, _, e⟩ <;> (rw [e] at h; cases h; rfl)
  case sknp x => rcases exec_sknp_cases x s with ⟨_, e⟩ | ⟨_, _, e⟩ <;> (rw [e] at h; cases h; rfl)
  case ldVxK x => rcases exec_ldVxK_cases x s with ⟨_, e⟩ | e <;> (rw [e] at h; cases h; rfl)
  all_goals (cases h; rfl)

end Sys2Proof.Machine
end

