-- ==== Sys2Proof/Machine/Assembly.lean ====
section
/-!
DEFINITION. The assembler's notation (spec/30_encoding.md R60, with the mnemonics of R56): the text of an instruction, and
the bytes of a line. It names words and has no behaviour; no step uses it.
-/
namespace Sys2Proof

/-- A hexadecimal digit. -/
def hexDigit (d : Fin 16) : String :=
  match d.val with
  | 0 => "0" | 1 => "1" | 2 => "2" | 3 => "3" | 4 => "4" | 5 => "5" | 6 => "6" | 7 => "7"
  | 8 => "8" | 9 => "9" | 10 => "A" | 11 => "B" | 12 => "C" | 13 => "D" | 14 => "E"
  | _ => "F" -- the one digit left

/-- A number of 8 bits in hexadecimal. -/
def hexByte (b : Byte) : String :=
  "0x" ++ hexDigit (b.extractLsb' 4 4).toFin ++ hexDigit (b.extractLsb' 0 4).toFin

/-- An address in hexadecimal. -/
def hexAddr (a : Addr) : String :=
  "0x" ++ hexDigit (a.extractLsb' 8 4).toFin ++ hexDigit (a.extractLsb' 4 4).toFin ++
    hexDigit (a.extractLsb' 0 4).toFin

/-- A register: V0 .. VF. -/
def regText (x : Reg) : String := "V" ++ hexDigit x

/-- A mnemonic with its operands, separated by commas. -/
def line1 (m a : String) : String := m ++ " " ++ a
/-- Two operands. -/
def line2 (m a b : String) : String := m ++ " " ++ a ++ ", " ++ b

/-- The shifts: the ignored `y` is written where it is not 0, and is 0 where it is not written. -/
def shiftText (m : String) (x y : Reg) : String :=
  if y = 0 then line1 m (regText x) else line2 m (regText x) (regText y)

/-- The text of an instruction. Every mnemonic with its operands stands for exactly one word. -/
def asmText : Instr → String
  | .cls => "CLS"
  | .ret => "RET"
  | .jp nnn => line1 "JP" (hexAddr nnn)
  | .call nnn => line1 "CALL" (hexAddr nnn)
  | .seByte x kk => line2 "SE" (regText x) (hexByte kk)
  | .sneByte x kk => line2 "SNE" (regText x) (hexByte kk)
  | .seReg x y => line2 "SE" (regText x) (regText y)
  | .ldByte x kk => line2 "LD" (regText x) (hexByte kk)
  | .addByte x kk => line2 "ADD" (regText x) (hexByte kk)
  | .ldReg x y => line2 "LD" (regText x) (regText y)
  | .orReg x y => line2 "OR" (regText x) (regText y)
  | .andReg x y => line2 "AND" (regText x) (regText y)
  | .xorReg x y => line2 "XOR" (regText x) (regText y)
  | .addReg x y => line2 "ADD" (regText x) (regText y)
  | .subReg x y => line2 "SUB" (regText x) (regText y)
  | .shr x y => shiftText "SHR" x y
  | .subnReg x y => line2 "SUBN" (regText x) (regText y)
  | .shl x y => shiftText "SHL" x y
  | .sneReg x y => line2 "SNE" (regText x) (regText y)
  | .ldI nnn => line2 "LD" "I" (hexAddr nnn)
  | .jpV0 nnn => line2 "JP" "V0" (hexAddr nnn)
  | .rnd x kk => line2 "RND" (regText x) (hexByte kk)
  | .drw x y n => line2 "DRW" (regText x) (regText y) ++ ", 0x" ++ hexDigit n
  | .skp x => line1 "SKP" (regText x)
  | .sknp x => line1 "SKNP" (regText x)
  | .ldVxDT x => line2 "LD" (regText x) "DT"
  | .ldVxK x => line2 "LD" (regText x) "K"
  | .ldDTVx x => line2 "LD" "DT" (regText x)
  | .ldSTVx x => line2 "LD" "ST" (regText x)
  | .addI x => line2 "ADD" "I" (regText x)
  | .ldF x => line2 "LD" "F" (regText x)
  | .ldB x => line2 "LD" "B" (regText x)
  | .storeRegs x => line2 "LD" "[I]" (regText x)
  | .loadRegs x => line2 "LD" (regText x) "[I]"

/-- A line of a program: an instruction, or one of the two data directives. -/
inductive AsmLine where
  /-- An instruction. -/
  | instr (i : Instr)
  /-- `DB b`: one byte. -/
  | db (b : Byte)
  /-- `DW w`: a word, big-endian. -/
  | dw (w : Word)
deriving DecidableEq, Repr

/-- The bytes of a line. -/
def AsmLine.bytes : AsmLine → List Byte
  | .instr i => bytesOfWord (encode i)
  | .db b => [b]
  | .dw w => bytesOfWord w

/-- The ROM of a program: its lines' bytes, one after another. -/
def assemble (lines : List AsmLine) : List Byte := lines.flatMap AsmLine.bytes

end Sys2Proof
end

