-- ==== Sys2Proof/Tests/Slice0.lean ====
section
/-!
SUPPORT. Tests with results taken from spec/ (the vectors of spec/95_test_vectors.md, named by their ids, and words written
out from the formats of spec/30_encoding.md), and for each statement with hypotheses a theorem that something meets them.
-/
namespace Sys2Proof.Tests

open Sys2Proof.Machine

/-! ### Small states -/

/-- Reset with `V[0]` and `V[1]` set. -/
def v01 (a b : Byte) : State := (State.reset.setV 0 a).setV 1 b

/-- Bytes placed in memory. -/
def place (a : Nat) (bs : List Byte) (s : State) : State := s.setM (s.M.writeBytes a bs)

/-- Reset with a stack of the given depth, its lowest entry 0x206. -/
def stackAt (d : Fin 17) : State := State.reset.setStack d (State.reset.S.set 0 0x206)

/-- A state halted by a fault. -/
def halted : State := State.reset.setStatus (.halted .keyRange 0x10)

/-- The answer is a next state with the property. -/
def next (r : Result) (p : State → Bool) : Bool :=
  match r with
  | .next t => p t
  | .fault _ => false
  | .refused _ => false

/-- The answer is a next state halted by this fault, pc as given. -/
def faults (r : Result) (c : Cause) (info pc : Word) : Bool :=
  next r fun t => t.status == .halted c info && t.pc == pc

/-! ### Well-formed terms -/

theorem test_wellFormed_long_rom_refused : (Op.create (List.replicate 3585 0)).wellFormed = false := by
  rw [Op.wellFormed, List.length_replicate]; decide
theorem test_wellFormed_full_rom : (Op.create (List.replicate 3584 0)).wellFormed = true := by
  rw [Op.wellFormed, List.length_replicate]; decide
theorem test_wellFormed_press_refused : (Op.press 16).wellFormed = false ∧ (Op.press 15).wellFormed = true := by decide
theorem test_wellFormed_release_refused : (Op.release 16).wellFormed = false ∧ (Op.release 0).wellFormed = true := by
  decide

/-! ### Decoding: every constructor, by a word written out from R53 and R56 -/

theorem test_decode_display :
    decode 0b0000000011100000 = .ok .cls ∧ decode 0b1101010110100011 = .ok (.drw 5 10 3) := by decide
theorem test_decode_control :
    decode 0b0000000011101110 = .ok .ret ∧ decode 0b0001101010111100 = .ok (.jp 0xABC) ∧
    decode 0b0010000100100011 = .ok (.call 0x123) ∧ decode 0b0011011101011010 = .ok (.seByte 7 0x5A) ∧
    decode 0b0100100010100101 = .ok (.sneByte 8 0xA5) ∧ decode 0b0101001101000000 = .ok (.seReg 3 4) ∧
    decode 0b1001110000010000 = .ok (.sneReg 12 1) ∧ decode 0b1011111111111111 = .ok (.jpV0 0xFFF) := by decide
theorem test_decode_arithmetic :
    decode 0b0110111110000001 = .ok (.ldByte 15 0x81) ∧ decode 0b0111101010010000 = .ok (.addByte 10 0x90) ∧
    decode 0b1000000100100000 = .ok (.ldReg 1 2) ∧ decode 0b1000001000110001 = .ok (.orReg 2 3) ∧
    decode 0b1000001101000010 = .ok (.andReg 3 4) ∧ decode 0b1000010001010011 = .ok (.xorReg 4 5) ∧
    decode 0b1000010101100100 = .ok (.addReg 5 6) ∧ decode 0b1000011001110101 = .ok (.subReg 6 7) ∧
    decode 0b1000101010110110 = .ok (.shr 10 11) ∧ decode 0b1000100010010111 = .ok (.subnReg 8 9) ∧
    decode 0b1000110011011110 = .ok (.shl 12 13) ∧ decode 0b1100001100001111 = .ok (.rnd 3 0x0F) := by decide
theorem test_decode_index_memory :
    decode 0b1010001100000001 = .ok (.ldI 0x301) ∧ decode 0b1111001000011110 = .ok (.addI 2) ∧
    decode 0b1111111000101001 = .ok (.ldF 14) ∧ decode 0b1111000100110011 = .ok (.ldB 1) ∧
    decode 0b1111011001010101 = .ok (.storeRegs 6) ∧ decode 0b1111111101100101 = .ok (.loadRegs 15) := by decide
theorem test_decode_keypad_timers :
    decode 0b1110000110011110 = .ok (.skp 1) ∧ decode 0b1110110010100001 = .ok (.sknp 12) ∧
    decode 0b1111101100000111 = .ok (.ldVxDT 11) ∧ decode 0b1111001100001010 = .ok (.ldVxK 3) ∧
    decode 0b1111010000010101 = .ok (.ldDTVx 4) ∧ decode 0b1111010100011000 = .ok (.ldSTVx 5) := by decide
/-- E1, E3-E12. -/
theorem test_decode_invalid :
    decode 0x0000 = .error (.invalidInstruction 0x0000) ∧ decode 0x00E1 = .error (.invalidInstruction 0x00E1) ∧
    decode 0x0123 = .error (.invalidInstruction 0x0123) ∧ decode 0x00EF = .error (.invalidInstruction 0x00EF) ∧
    decode 0x5121 = .error (.invalidInstruction 0x5121) ∧ decode 0x9121 = .error (.invalidInstruction 0x9121) ∧
    decode 0x8008 = .error (.invalidInstruction 0x8008) ∧ decode 0x800F = .error (.invalidInstruction 0x800F) ∧
    decode 0xE09F = .error (.invalidInstruction 0xE09F) ∧ decode 0xF000 = .error (.invalidInstruction 0xF000) ∧
    decode 0xF0FF = .error (.invalidInstruction 0xF0FF) := by decide
theorem test_decodeTableWord :
    decodeTableWord 16 0x6A80 = some (.ldByte 10 0x80) ∧ decodeTableWord 16 0x5121 = none := by decide

/-- R60, and the bytes of program P1 (S9). -/
theorem test_asmText : asmText (.drw 5 10 3) = "DRW V5, VA, 0x3" ∧ asmText (.shr 10 0) = "SHR VA" ∧
    asmText (.storeRegs 15) = "LD [I], VF" := by decide
theorem test_assemble : assemble [.instr (.ldByte 0 5), .instr (.ldByte 1 10), .instr (.addReg 0 1), .instr .cls, .db 1,
    .dw 0x8001] = [0x60, 0x05, 0x61, 0x0A, 0x80, 0x14, 0x00, 0xE0, 0x01, 0x80, 0x01] := by decide

/-! ### One instruction, from spec/95_test_vectors.md -/

/-- V1. -/
theorem test_cls : next (execCls (State.reset.setFB (State.reset.FB.toggle 63 31)))
    (fun t => !t.FB.pixel 63 31 && t.dirty && t.V[VF] == 0 && t.pc == 0x202) = true := by decide
/-- V3: 4 columns wrap. -/
theorem test_drw_wraps : next (execDrw 0 1 1 ((place 0x300 [0xFF] (v01 60 0)).setI 0x300))
    (fun t => t.FB.pixel 63 0 && t.FB.pixel 3 0 && !t.FB.pixel 4 0 && !t.FB.pixel 59 0 && t.V[VF] == 0 && t.dirty) =
    true := by decide
/-- V7: one collision suffices; bit 7 is the leftmost pixel. -/
theorem test_drw_collides : next (execDrw 0 1 1 (((place 0x300 [0x18] (v01 0 0)).setI 0x300).setFB
      (((State.reset.FB.toggle 0 0).toggle 2 0).toggle 3 0)))
    (fun t => t.FB.pixel 0 0 && t.FB.pixel 2 0 && !t.FB.pixel 3 0 && t.FB.pixel 4 0 && t.V[VF] == 1) = true := by decide
/-- C1, and C2. -/
theorem test_ret : next (execRet ((stackAt 1).setPC 0x212)) (fun t => t.pc == 0x206 && t.SP == 0) = true := by decide
theorem test_ret_underflow : faults (execRet (stackAt 0)) .stackUnderflow 0x200 0x200 = true := by decide
/-- C3. -/
theorem test_jp : next (execJp 0x204 (State.reset.setPC 0x20A)) (fun t => t.pc == 0x204) = true := by decide
/-- C7, and C6. -/
theorem test_call : next (execCall 0x300 (State.reset.setPC 0xFFE))
    (fun t => t.pc == 0x300 && t.SP == 1 && t.S[0] == 0x1000) = true := by decide
theorem test_call_overflow : faults (execCall 0x300 (stackAt 16)) .stackOverflow 0x200 0x200 = true := by decide
/-- C8 and C9. -/
theorem test_seByte : next (execSeByte 1 0 (v01 0 0)) (fun t => t.pc == 0x204) = true ∧
    next (execSeByte 1 0 (v01 0 3)) (fun t => t.pc == 0x202) = true := by decide
/-- C10 and C11. -/
theorem test_sneByte : next (execSneByte 1 0x11 (v01 0 0x10)) (fun t => t.pc == 0x204) = true ∧
    next (execSneByte 1 0x10 (v01 0 0x10)) (fun t => t.pc == 0x202) = true := by decide
/-- C12 and C13. -/
theorem test_seReg : next (execSeReg 0 1 (v01 7 7)) (fun t => t.pc == 0x204) = true ∧
    next (execSeReg 0 1 (v01 7 8)) (fun t => t.pc == 0x202) = true := by decide
/-- C15 and C16. -/
theorem test_sneReg : next (execSneReg 0 1 (v01 7 8)) (fun t => t.pc == 0x204) = true ∧
    next (execSneReg 0 0 (v01 7 8)) (fun t => t.pc == 0x202) = true := by decide
/-- C19: the largest pc any instruction writes. -/
theorem test_jpV0 : next (execJpV0 0xFFF (v01 0xFF 0)) (fun t => t.pc == 0x10FE) = true := by decide
/-- A2. -/
theorem test_ldByte : next (execLdByte 15 0x81 State.reset) (fun t => t.V[VF] == 0x81 && t.pc == 0x202) = true := by
  decide
/-- A3. -/
theorem test_addByte : next (execAddByte 0 0xFF ((v01 5 0).setV VF 0x55)) (fun t => t.V[0] == 4 && t.V[VF] == 0x55) =
    true := by decide
/-- A5. -/
theorem test_ldReg : next (execLdReg 0 1 (v01 0 0x3C)) (fun t => t.V[0] == 0x3C && t.V[1] == 0x3C) = true := by decide
/-- A6, A7 and A8. -/
theorem test_orReg : next (execOrReg 0 1 (v01 0xF0 0x0F)) (fun t => t.V[0] == 0xFF) = true := by decide
theorem test_andReg : next (execAndReg 0 1 (v01 0xF0 0x3C)) (fun t => t.V[0] == 0x30) = true := by decide
theorem test_xorReg : next (execXorReg 0 1 (v01 0xF0 0x3C)) (fun t => t.V[0] == 0xCC) = true := by decide
/-- S2, and A12: the addend is VF's old value. -/
theorem test_addReg : next (execAddReg 0 1 (v01 0xFF 0xFF)) (fun t => t.V[0] == 0xFE && t.V[VF] == 1) = true := by decide
theorem test_addReg_vf : next (execAddReg 0 15 ((v01 1 0).setV VF 0xFF)) (fun t => t.V[0] == 0 && t.V[VF] == 1) =
    true := by decide
/-- S3, and A13. -/
theorem test_subReg : next (execSubReg 0 1 (v01 3 5)) (fun t => t.V[0] == 0xFE && t.V[VF] == 0) = true := by decide
theorem test_subReg_vf : next (execSubReg 15 0 ((v01 1 0).setV VF 0x10)) (fun t => t.V[VF] == 1) = true := by decide
/-- A14, and A15. -/
theorem test_shr : next (execShr 0 1 (v01 2 0xFF)) (fun t => t.V[0] == 1 && t.V[1] == 0xFF && t.V[VF] == 0) = true := by
  decide
theorem test_shr_vf : next (execShr 15 15 (State.reset.setV VF 2)) (fun t => t.V[VF] == 0) = true := by decide
/-- S3: equal operands do not borrow. -/
theorem test_subnReg : next (execSubnReg 0 1 (v01 0x22 0x22)) (fun t => t.V[0] == 0 && t.V[VF] == 1) = true ∧
    next (execSubnReg 0 1 (v01 1 0)) (fun t => t.V[0] == 0xFF && t.V[VF] == 0) = true := by decide
/-- A17, and A18. -/
theorem test_shl : next (execShl 0 1 (v01 0xFF 0)) (fun t => t.V[0] == 0xFE && t.V[VF] == 1) = true := by decide
theorem test_shl_vf : next (execShl 15 15 (State.reset.setV VF 0x40)) (fun t => t.V[VF] == 0) = true := by decide
/-- M1. -/
theorem test_ldI : next (execLdI 0x300 State.reset) (fun t => t.I == 0x300 && t.pc == 0x202) = true := by decide
/-- A20. -/
theorem test_rnd : next (execRnd 3 0x0F (State.reset.withRnd 0xA7)) (fun t => t.V[3] == 7) = true := by decide
/-- K1, and K5. -/
theorem test_skp : next (execSkp 1 (((v01 0 7).setKey 7 true).setPC 0x210)) (fun t => t.pc == 0x214) = true := by decide
theorem test_skp_range : faults (execSkp 1 (v01 0 0x10)) .keyRange 0x10 0x200 = true := by decide
/-- K3, and K6. -/
theorem test_sknp : next (execSknp 1 ((v01 0 7).setPC 0x210)) (fun t => t.pc == 0x214) = true := by decide
theorem test_sknp_range : faults (execSknp 1 (v01 0 0xFF)) .keyRange 0xFF 0x200 = true := by decide
/-- R98. -/
theorem test_ldVxDT : next (execLdVxDT 4 (State.reset.setDT 0x3C)) (fun t => t.V[4] == 0x3C && t.DT == 0x3C) = true := by
  decide
/-- K7, and one pressed key (R99). -/
theorem test_ldVxK_waits : next (execLdVxK 3 State.reset) (fun t => t == State.reset) = true := by decide
theorem test_ldVxK : next (execLdVxK 3 (State.reset.setKey 12 true)) (fun t => t.V[3] == 12 && t.pc == 0x202) = true := by
  decide
/-- R100, R101. -/
theorem test_ldDTVx : next (execLdDTVx 1 (v01 0 9)) (fun t => t.DT == 9 && t.ST == 0) = true := by decide
theorem test_ldSTVx : next (execLdSTVx 1 (v01 0 9)) (fun t => t.ST == 9 && t.DT == 0 && t.soundOn) = true := by decide
/-- M3. -/
theorem test_addI : next (execAddI 1 (((v01 0 1).setI 0xFFFF).setV VF 0x33)) (fun t => t.I == 0 && t.V[VF] == 0x33) =
    true := by decide
/-- M6: the digit is not reduced. -/
theorem test_ldF : glyphAddr 0xFF = BitVec.ofNat 16 (Config.glyphBase.val + 1275) := by simp [glyphAddr]
/-- M7, and M8. -/
theorem test_ldB : next (execLdB 0 ((v01 0xFE 0).setI 0x300))
    (fun t => t.M == [(0x300, 2), (0x301, 5), (0x302, 4)] && t.I == 0x300) = true := by decide
theorem test_ldB_range : faults (execLdB 0 ((v01 0xFF 0).setI 0xFFE)) .addressRange 0x1000 0x200 = true := by decide
/-- M11 with two registers, and M13. -/
theorem test_storeRegs : next (execStoreRegs 1 ((v01 1 2).setI 0x400))
    (fun t => t.M == [(0x400, 1), (0x401, 2)] && t.I == 0x400) = true := by decide
theorem test_storeRegs_reserved : faults (execStoreRegs 0 State.reset) .reservedWrite 0 0x200 = true := by decide
/-- M15, and M17. -/
theorem test_loadRegs : next (execLoadRegs 2 ((place 0x300 [2, 5, 4] State.reset).setI 0x300))
    (fun t => t.V[0] == 2 && t.V[1] == 5 && t.V[2] == 4 && t.V[3] == 0 && t.I == 0x300) = true := by decide
theorem test_loadRegs_range : faults (execLoadRegs 1 ((v01 9 0).setI 0xFFF)) .addressRange 0x1000 0x200 = true := by
  decide

/-! ### Cycles and host operations -/

/-- C21: an odd pc. -/
theorem test_cycle_odd_pc : next (opCycle 0 ((place 0x203 [0x61, 0x2A] State.reset).setPC 0x203))
    (fun t => t.V[1] == 0x2A && t.pc == 0x205) = true := by decide
/-- C23, and E1. -/
theorem test_cycle_faults : resultOf (.cycle 0) (State.reset.setPC 0xFFF) = .fault .addressRange 0x1000 ∧
    resultOf (.cycle 0) State.reset = .fault .invalidInstruction 0x0000 ∧
    resultOf (.cycle 0) halted = .halted .keyRange 0x10 := by decide
/-- S8. -/
theorem test_tick : timerDown 2 = 1 ∧ timerDown 1 = 0 ∧ timerDown 0 = 0 := by decide
/-- The first words of program P1 (S9) land at 0x200. -/
theorem test_create : next (opCreate [0x60, 0x05, 0x61, 0x0A] halted)
    (fun t => t.M == [(0x200, 0x60), (0x201, 0x05), (0x202, 0x61), (0x203, 0x0A)] && t.status == .running) = true := by
  decide
/-- A placed word runs in the next step. -/
theorem test_withFetchWord : next (step (State.reset.withFetchWord 16 0x6A80)) (fun t => t.V[10] == 0x80) = true := by
  decide

/-! ### Witnesses: something meets the hypotheses of each statement, clause by clause, at the ends of the ranges -/

theorem witness_LiteralLoadAndAdd : 0x6A80#16 &&& 0xF000 = 0x6000 ∧ 0x7FFF#16 &&& 0xF000 = 0x7000 := by decide
theorem witness_CopyAndBitwise : 0x8120#16 &&& 0xF00F = 0x8000 ∧ 0x8011#16 &&& 0xF00F = 0x8001 ∧
    0x8FF2#16 &&& 0xF00F = 0x8002 ∧ 0x8113#16 &&& 0xF00F = 0x8003 := by decide
theorem witness_AddWithCarry : 0x8014#16 &&& 0xF00F = 0x8004 ∧ (14 : Reg) ≠ VF := by decide
theorem witness_SubtractBothWays : 0x8015#16 &&& 0xF00F = 0x8005 ∧ 0x8017#16 &&& 0xF00F = 0x8007 ∧ (0 : Reg) ≠ VF := by
  decide
theorem witness_ShiftsByOne : 0x8016#16 &&& 0xF00F = 0x8006 ∧ 0x801E#16 &&& 0xF00F = 0x800E ∧ (0 : Reg) ≠ VF := by decide
theorem witness_FlagWinsOverResult : (14 : Reg) ≠ VF := by decide
theorem witness_RandomByteMasked : 0xC30F#16 &&& 0xF000 = 0xC000 := by decide
theorem witness_SkipsOnRegisters : 0x3100#16 &&& 0xF000 = 0x3000 ∧ 0x4211#16 &&& 0xF000 = 0x4000 ∧
    0x5340#16 &&& 0xF00F = 0x5000 ∧ 0x9340#16 &&& 0xF00F = 0x9000 ∧
    (v01 7 8).V[(0 : Reg)].toNat = (7 : Byte).toNat ∧ (v01 7 8).V[(0 : Reg)].toNat ≠ (8 : Byte).toNat ∧
    (v01 7 7).V[(0 : Reg)].toNat = (v01 7 7).V[(1 : Reg)].toNat ∧
    (v01 7 8).V[(0 : Reg)].toNat ≠ (v01 7 8).V[(1 : Reg)].toNat ∧
    (0x5121#16).toNat / 4096 ∈ [0x5, 0x9] ∧ (0x5121#16).toNat % 16 ≠ 0 := by decide
theorem witness_Jumps : 0x1FFF#16 &&& 0xF000 = 0x1000 ∧ 0xBFFF#16 &&& 0xF000 = 0xB000 ∧
    State.reset.pc.toNat = (0x200 : Addr).toNat := by decide
theorem witness_CallPushesAndJumps : 0x2300#16 &&& 0xF000 = 0x2000 ∧ (stackAt 0).SP.val < 16 ∧ (stackAt 15).SP.val < 16 ∧
    (0 : Fin 16).val ≠ (stackAt 15).SP.val ∧ (stackAt 16).SP.val = 16 := by decide
theorem witness_ReturnPops : 0 < (stackAt 1).SP.val ∧ 0 < (stackAt 16).SP.val ∧ (stackAt 0).SP.val = 0 := by decide
theorem witness_CallThenReturnComesBack : (stackAt 15).SP.val < 16 ∧ (0 : Fin 16).val < (stackAt 15).SP.val := by decide

/-- A one-row sprite 0x80 at 0x300. -/
def oneDot : State := (place 0x300 [0x80] State.reset).setI 0x300

theorem oneDot_meets : SpriteMeets oneDot 0 1 1 0 0 := ⟨0, 0, by decide⟩
theorem witness_DrawSprite_miss : ¬SpriteMeets oneDot 0 1 1 1 0 := by
  have h0 : oneDot.V[(0 : Reg)].toNat = 0 := by decide
  rintro ⟨r, c, hr, hc, hb, hx, -⟩
  have h1 : (1 : Fin 64).val = 1 := rfl
  rw [h0, h1] at hx
  obtain rfl : r = 0 := by omega
  obtain rfl : c = 1 := by omega
  exact absurd hb (by decide)
theorem witness_DrawSprite_ok : 0xD011#16 &&& 0xF000 = 0xD000 ∧ (0 : Fin 16).val = 0 ∧
    (State.reset.setI 0xFF1).I.toNat + (15 : Fin 16).val ≤ 0x1000 := by decide
theorem witness_DrawSprite_collision : SpriteMeets (oneDot.setFB (oneDot.FB.toggle 0 0)) 0 1 1 0 0 ∧
    (oneDot.setFB (oneDot.FB.toggle 0 0)).FB.pixel 0 0 = true := ⟨⟨0, 0, by decide⟩, by decide⟩
theorem witness_DrawSprite_no_collision : ¬∃ px py, SpriteMeets oneDot 0 1 1 px py ∧ oneDot.FB.pixel px py = true := by
  rintro ⟨px, py, -, h⟩
  simp [oneDot, place, State.reset, Framebuffer.pixel] at h
theorem witness_DrawSprite_range : (1 : Fin 16).val ≠ 0 ∧ 0x1000 < (State.reset.setI 0x1000).I.toNat + (1 : Fin 16).val ∧
    0x1000 < (State.reset.setI 0xFFF).I.toNat + (2 : Fin 16).val := by decide
theorem witness_DrawTwiceErases : (0 : Reg) ≠ VF ∧ (1 : Reg) ≠ VF ∧ oneDot.I.toNat + (1 : Fin 16).val ≤ 0x1000 ∧
    (∃ px py, SpriteMeets oneDot 0 1 1 px py) ∧ ∃ t, exec (.drw 0 1 1) oneDot = .next t ∧ t.V[VF] = 0 :=
  ⟨by decide, by decide, by decide, ⟨0, 0, oneDot_meets⟩, _, rfl, by decide⟩

theorem witness_IndexRegister : 0xA300#16 &&& 0xF000 = 0xA000 ∧ 0xF21E#16 &&& 0xF0FF = 0xF01E ∧
    0xFF29#16 &&& 0xF0FF = 0xF029 := by decide
theorem witness_StoreBcdDigits : 0xF033#16 &&& 0xF0FF = 0xF033 ∧
    ((State.reset.setI 0x200).M.wf = true ∧ 0x200 ≤ (State.reset.setI 0x200).I.toNat ∧
      (State.reset.setI 0x200).I.toNat + 3 ≤ 0x1000) ∧
    ((State.reset.setI 0xFFD).M.wf = true ∧ 0x200 ≤ (State.reset.setI 0xFFD).I.toNat ∧
      (State.reset.setI 0xFFD).I.toNat + 3 ≤ 0x1000) ∧
    (State.reset.setI 0x1FF).I.toNat < 0x200 ∧ 0x1000 < (State.reset.setI 0xFFE).I.toNat + 3 := by decide
theorem witness_StoreRegisterBlock : 0xFF55#16 &&& 0xF0FF = 0xF055 ∧
    ((State.reset.setI 0x200).M.wf = true ∧ 0x200 ≤ (State.reset.setI 0x200).I.toNat ∧
      (State.reset.setI 0x200).I.toNat + (0 : Reg).val ≤ 0xFFF) ∧
    ((State.reset.setI 0xFF0).M.wf = true ∧ 0x200 ≤ (State.reset.setI 0xFF0).I.toNat ∧
      (State.reset.setI 0xFF0).I.toNat + (15 : Reg).val ≤ 0xFFF) ∧
    (15 : Reg) ≤ 15 ∧ (State.reset.setI 0x1FF).I.toNat < 0x200 ∧
    0xFFF < (State.reset.setI 0xFF1).I.toNat + (15 : Reg).val := by decide
theorem witness_LoadRegisterBlock : 0xFF65#16 &&& 0xF0FF = 0xF065 ∧ State.reset.I.toNat + (15 : Reg).val ≤ 0xFFF ∧
    (State.reset.setI 0xFFF).I.toNat + (0 : Reg).val ≤ 0xFFF ∧ (0 : Reg) ≤ 0 ∧ (0 : Reg) < 15 ∧
    0xFFF < (State.reset.setI 0xFFF).I.toNat + (1 : Reg).val := by decide
theorem witness_SkipsOnKeys : 0xE19E#16 &&& 0xF0FF = 0xE09E ∧ 0xE1A1#16 &&& 0xF0FF = 0xE0A1 ∧
    (v01 15 0).V[(0 : Reg)].toNat ≤ 15 ∧ ((v01 15 0).setKey 15 true).K[15] = true ∧ (v01 15 0).K[15] = false ∧
    15 < (v01 16 0).V[(0 : Reg)].toNat := by decide
theorem witness_TimerTransfers : 0xF007#16 &&& 0xF0FF = 0xF007 ∧ 0xF115#16 &&& 0xF0FF = 0xF015 ∧
    0xF118#16 &&& 0xF0FF = 0xF018 := by decide
theorem witness_WaitForKey : 0xF30A#16 &&& 0xF0FF = 0xF00A ∧ (∀ k : Key, State.reset.K[k] = false) ∧
    ∃ k : Key, ((State.reset.setKey 15 true).setKey 2 true).K[k] = true := by decide

theorem witness_NextPcOfEveryInstruction : (State.reset.setPC 0xFFE).status = .running ∧
    (State.reset.setPC 0xFFE).pc.toNat ≤ 0xFFE ∧
    (∃ t, exec .cls (State.reset.setPC 0xFFE) = .next t ∧ t.status = .running) ∧
    ∃ t, exec .ret (State.reset.setPC 0xFFE) = .next t ∧ t.status ≠ .running :=
  ⟨by decide, by decide, ⟨_, rfl, by decide⟩, _, rfl, by decide⟩
theorem witness_SkippedWordIsNotDecoded :
    Instr.sknp 0 ∈ [Instr.seByte 0 0, .sneByte 0 0, .seReg 0 0, .sneReg 0 0, .skp 0, .sknp 0] ∧
    State.reset.status = .running ∧ ∃ t, exec (.sknp 0) State.reset = .next t ∧ t.status = .running :=
  ⟨by decide, by decide, _, rfl, by decide⟩
theorem witness_WritersOfVF : (∃ t, exec (.drw 0 1 0) State.reset = .next t) ∧
    (∃ t, exec (.ldByte 14 1) State.reset = .next t) ∧ (14 : Reg) ≠ VF ∧ ∃ t, exec .cls State.reset = .next t :=
  ⟨⟨_, rfl⟩, ⟨_, rfl⟩, by decide, _, rfl⟩
theorem witness_WritersOfEachState :
    (∃ t, exec (.ldI 1) State.reset = .next t ∧ t.I ≠ State.reset.I) ∧
    (∃ t, exec (.call 0) State.reset = .next t ∧ t.SP ≠ State.reset.SP ∧ t.S ≠ State.reset.S) ∧
    (∃ t, exec (.ldDTVx 0) (v01 1 0) = .next t ∧ t.DT ≠ (v01 1 0).DT) ∧
    (∃ t, exec (.ldSTVx 0) (v01 1 0) = .next t ∧ t.ST ≠ (v01 1 0).ST) ∧
    (∃ t, exec (.drw 0 1 1) oneDot = .next t ∧ t.FB ≠ oneDot.FB ∧ t.dirty ≠ oneDot.dirty) ∧
    ∃ t, exec (.storeRegs 0) ((v01 1 0).setI 0x300) = .next t ∧ t.M ≠ ((v01 1 0).setI 0x300).M :=
  ⟨⟨_, rfl, by decide⟩, ⟨_, rfl, by decide⟩, ⟨_, rfl, by decide⟩, ⟨_, rfl, by decide⟩, ⟨_, rfl, by decide⟩, _, rfl,
    by decide⟩
theorem witness_VFIsNotReadImplicitly : ¬NamesVF (.addReg 0 14) ∧ ¬NamesVF (.shr 0 15) ∧ ¬NamesVF (.drw 0 1 5) := by
  simp only [NamesVF]; decide
theorem witness_DeadStackEntriesUnobservable : SameButDeadEntries (stackAt 0) State.reset ∧
    ∃ t, step (stackAt 0) = .next t := ⟨⟨rfl, fun _ h => absurd h (Nat.not_lt_zero _)⟩, _, rfl⟩
theorem witness_RandomByteOnlyForRnd : ∀ x kk, Instr.cls ≠ .rnd x kk := fun _ _ h => Instr.noConfusion h

/-! #### Decoding, cycles, faults -/

theorem witness_DecodingConsumesTwoBytes : decodeBytes [0x60, 0x05, 0xAA] = .ok (.ldByte 0 5, [0xAA]) := by decide
theorem witness_InvalidWordsAreThese : ¬InvalidWord 0x00E0 ∧ ¬InvalidWord 0xFF65 ∧ InvalidWord 0x0000 ∧
    InvalidWord 0x5121 ∧ InvalidWord 0x800F ∧ InvalidWord 0x9121 ∧ InvalidWord 0xE09F ∧ InvalidWord 0xF0FF ∧
    State.reset.status = .running ∧ fetch State.reset = .ok 0x0000 := by
  refine ⟨?_, ?_, ?_, ?_, ?_, ?_, ?_, ?_, by decide, by decide⟩ <;> simp [InvalidWord]
theorem witness_DecodeEncodeInverse : encode (.shr 10 11) = 0x8AB6 ∧ decode 0x8AB6 = .ok (.shr 10 11) := by decide
theorem witness_FetchIsBigEndian : (State.reset.setPC 0).pc.toNat ≤ 0xFFE ∧ (State.reset.setPC 0xFFE).pc.toNat ≤ 0xFFE ∧
    (State.reset.setPC 0xFFF).pc.toNat = 0xFFF ∧ 0x1000 ≤ (State.reset.setPC 0x1000).pc.toNat := by decide

/-- A running state whose next word is the given one. -/
def running (hi lo : Byte) : State := place 0x200 [hi, lo] State.reset

theorem witness_CycleIsTheTransaction : halted.status = .halted .keyRange 0x10 ∧
    fetch (State.reset.setPC 0xFFF) = .error 0x1000 ∧
    (fetch (running 0x51 0x21) = .ok 0x5121 ∧ decode 0x5121 = .error (.invalidInstruction 0x5121)) ∧
    (fetch (running 0x00 0xE0) = .ok 0x00E0 ∧ decode 0x00E0 = .ok .cls) ∧
    (∃ t, opCycle 0 (running 0x00 0xE0) = .next t ∧ t.status = .running) ∧
    ∃ t, opCycle 0 (running 0x00 0xEE) = .next t ∧ t.status = .halted .stackUnderflow 0x200 :=
  ⟨by decide, by decide, by decide, by decide, ⟨_, rfl, by decide⟩, _, rfl, by decide⟩
theorem witness_StepRunsDecodedInstruction : (running 0x00 0xE0).env.pending = [] ∧
    (running 0x00 0xE0).status = .running ∧ (running 0x00 0xE0).pc.toNat ≤ 0xFFE ∧
    decodeBytes [(running 0x00 0xE0).M.read 0x200, (running 0x00 0xE0).M.read 0x201] = .ok (.cls, []) := by decide
theorem witness_PlacedWordIsRun : halted.M.wf = true ∧ decodeTableWord 16 0x6A80 = some (.ldByte 10 0x80) := by decide
theorem witness_FaultsArePrecise : (running 0x00 0xE0).status = .running := by decide
theorem witness_FaultCausesAreThese :
    resultOf (.cycle 0) (running 0x51 0x21) = .fault .invalidInstruction 0x5121 ∧
    resultOf (.cycle 0) ((running 0x23 0x00).setStack 16 State.reset.S) = .fault .stackOverflow 0x200 ∧
    resultOf (.cycle 0) (running 0x00 0xEE) = .fault .stackUnderflow 0x200 ∧
    resultOf (.cycle 0) ((running 0xF0 0x33).setI 0xFFE) = .fault .addressRange 0x1000 ∧
    resultOf (.cycle 0) ((running 0xF0 0x55).setI 0x1FF) = .fault .reservedWrite 0x1FF ∧
    resultOf (.cycle 0) ((running 0xE0 0x9E).setV 0 16) = .fault .keyRange 16 := by decide
theorem witness_HaltedUntilCreate : halted.status = .halted .keyRange 0x10 ∧
    ∃ t, perform (.create [0x00]) halted = .next t ∧ t.status ≠ .halted .keyRange 0x10 :=
  ⟨by decide, _, rfl, by decide⟩
theorem witness_HostOperationsIgnoreStatus :
    Op.press 16 ∈ [Op.tick, .press 16, .release 16, .readDisplay, .clearDirty] := by decide

/-! #### Memory, host operations, invariants -/

theorem witness_CanonicalMemoriesAreEqual : Memory.wf (Memory.write [] 0x300 1) = true ∧
    ∀ a, Memory.read (Memory.write [] 0x300 1) a = Memory.read [(0x300, 1)] a := ⟨by decide, fun _ => rfl⟩
theorem witness_StoresAreFetched : ∃ t, exec (.storeRegs 1) ((v01 0x61 0x2A).setI 0xFFE) = .next t ∧
    ((v01 0x61 0x2A).setI 0xFFE).M.wf = true ∧ ((v01 0x61 0x2A).setI 0xFFE).status = .running ∧ t.status = .running ∧
    (1 : Reg).val = (0 : Reg).val + 1 ∧ (1 : Reg) ≤ 1 ∧
    (0xFFE : Word).toNat = ((v01 0x61 0x2A).setI 0xFFE).I.toNat + (0 : Reg).val :=
  ⟨_, rfl, by decide, by decide, by decide, by decide, by decide, by decide⟩

/-- The largest pc, a full stack of the largest entries and a byte at each end of the program region meet the invariant. -/
def extreme : State := (place 0x200 [1] (place 0xFFF [1] (State.reset.setPC 0x10FE))).setStack 16 (Vector.replicate 16 0x1000)

theorem extreme_inv : extreme.Inv where
  pc := show (0x10FE : Word).toNat ≤ 0x10FE by decide
  stack := fun j => by simp [extreme]
  canonical := by decide
  region := show ∀ c ∈ extreme.M, 0x200 ≤ c.1 ∧ c.1 ≤ 0xFFF by decide
theorem witness_ReservedRegionKeeps : extreme.Inv ∧ (∃ t, step extreme = .next t) ∧ 0x1FF < 0x200 :=
  ⟨extreme_inv, ⟨_, rfl⟩, by decide⟩
theorem witness_StepKeepsInvariant : extreme.Inv ∧ ∃ t, step extreme = .next t := ⟨extreme_inv, _, rfl⟩
theorem witness_ReachableStatesMeetInvariant : Reachable (created [0x12, 0x00] Env.initial) ∧ 0x1FF < 0x200 :=
  ⟨.created _ _ (by decide), by decide⟩
theorem witness_SoundOnFollowsTimer : (∃ t, exec (.ldSTVx 0) (v01 1 0) = .next t ∧ t.soundOn ≠ (v01 1 0).soundOn) ∧
    Op.press 15 ∈ [Op.press 15, .release 15, .readDisplay, .clearDirty] ∧ ∃ t, perform (.press 15) State.reset = .next t :=
  ⟨⟨_, rfl, by decide⟩, by decide, _, rfl⟩
theorem witness_PressAndRelease : 15 < 16 ∧ (State.reset.setKey 15 true).K[15] = true ∧ State.reset.K[15] = false ∧
    (3 : Key).val ≠ 15 ∧ 16 ≤ 16 := by decide
theorem witness_DisplayInterface : ∃ t, perform .clearDirty (State.reset.setDirty true) = .next t ∧
    (State.reset.setDirty true).dirty = true ∧ t.dirty = false := ⟨_, rfl, by decide, by decide⟩
theorem witness_ResetValues : (List.replicate 3584 (0 : Byte)).length ≤ 3584 ∧ ([] : List Byte).length ≤ 3584 ∧
    0 < [(1 : Byte)].length := ⟨by rw [List.length_replicate], by decide, by decide⟩
theorem witness_RefusedLoads : 3584 < (List.replicate 3585 (0 : Byte)).length ∧ ∀ r, Op.tick ≠ .create r :=
  ⟨by rw [List.length_replicate]; decide, fun _ h => Op.noConfusion h⟩

end Sys2Proof.Tests
end

section
/-!
SUPPORT. Every instruction as a fault check and an effect: what turns it down, and the state it makes otherwise. Both are
total functions of the state before, so that a rule about all instructions is one case split over each of them.
-/
namespace Sys2Proof.Machine

/-! ### The two parts of an answer -/

/-- The fault of the first of the `n` data accesses at I that `check` turns down (R45), with its information (R102). -/
def accessFault (check : Nat → Option Cause) (n : Nat) (s : State) : Option (Cause × Word) :=
  (firstFault check (s.dataAddr 0) n).map fun f => (f.1, BitVec.ofNat 16 f.2)

/-- The fault of storing the bytes `bs` at I, I + 1, ... -/
def storeFault (bs : List Byte) (s : State) : Option (Cause × Word) := accessFault writeCheck bs.length s

/-- KEY_RANGE where V[x] is no key index (R96, R97). -/
def keyFault (x : Reg) (s : State) : Option (Cause × Word) :=
  if (keyOperand (s.reg x)).isSome then none else some (.keyRange, byteWord (s.reg x))

/-- The fault an instruction raises, `none` where it has its effect. -/
def faultOf : Instr → State → Option (Cause × Word)
  | .ret, s => if s.SP.val = 0 then some (.stackUnderflow, s.pc) else none
  | .call _, s => if s.SP.val = 16 then some (.stackOverflow, s.pc) else none
  | .drw _ _ n, s => accessFault readCheck n.val s
  | .ldB x, s => storeFault (bcdDigits (s.reg x)) s
  | .storeRegs x, s => storeFault (s.regBlock x) s
  | .loadRegs x, s => accessFault readCheck (x.val + 1) s
  | .skp x, s | .sknp x, s => keyFault x s
  | _, _ => none

/-- Whether the key that V[x] names is as wanted. -/
def keyTest (want : Bool) (x : Reg) (s : State) : Bool := (keyOperand (s.reg x)).any fun k => s.K[k] == want

/-- The registers after Fx0A (R99). -/
def waitRegs (x : Reg) (s : State) : Vector Byte 16 :=
  (chooseKey s.pressedKeys).elim s.V fun k => s.V.set x (keyByte k)

/-- The pc after Fx0A (R99). -/
def waitPC (s : State) : Word := if (chooseKey s.pressedKeys).isSome then s.pc + 2 else s.pc

/-- The state after an instruction that does not fault. (Of one that faults it says nothing: only then is the pushed entry
out of bounds or the popped one not in use.) -/
def effect : Instr → State → State
  | .cls, s => ((s.setFB Framebuffer.clear).setDirty true).advance
  | .ret, s => (s.setStack ⟨s.SP.val - 1, by omega⟩ s.S).setPC (s.S[s.SP.val - 1]'(by omega))
  | .jp nnn, s => s.setPC (addrWord nnn)
  | .call nnn, s => (s.setStack (s.SP + 1) (s.S.setIfInBounds s.SP.val (s.pc + 2))).setPC (addrWord nnn)
  | .seByte x kk, s => s.skipIf (s.reg x == kk)
  | .sneByte x kk, s => s.skipIf (s.reg x != kk)
  | .seReg x y, s => s.skipIf (s.reg x == s.reg y)
  | .sneReg x y, s => s.skipIf (s.reg x != s.reg y)
  | .ldByte x kk, s => (s.setV x kk).advance
  | .addByte x kk, s => (s.setV x (s.reg x + kk)).advance
  | .ldReg x y, s => (s.setV x (s.reg y)).advance
  | .orReg x y, s => (s.setV x (s.reg x ||| s.reg y)).advance
  | .andReg x y, s => (s.setV x (s.reg x &&& s.reg y)).advance
  | .xorReg x y, s => (s.setV x (s.reg x ^^^ s.reg y)).advance
  | .addReg x y, s => (s.setResultFlag x (s.reg x + s.reg y) (carry (s.reg x) (s.reg y))).advance
  | .subReg x y, s => (s.setResultFlag x (s.reg x - s.reg y) (notBorrow (s.reg x) (s.reg y))).advance
  | .shr x _, s => (s.setResultFlag x (s.reg x >>> 1) (shiftedOutRight (s.reg x))).advance
  | .subnReg x y, s => (s.setResultFlag x (s.reg y - s.reg x) (notBorrow (s.reg y) (s.reg x))).advance
  | .shl x _, s => (s.setResultFlag x (s.reg x <<< 1) (shiftedOutLeft (s.reg x))).advance
  | .ldI nnn, s => (s.setI (addrWord nnn)).advance
  | .jpV0 nnn, s => s.setPC (addrWord nnn + byteWord (s.reg 0))
  | .rnd x kk, s => (s.setV x (s.env.rnd &&& kk)).advance
  | .drw x y n, s => (((s.setFB (drawn x y n s).1).setFlag (drawn x y n s).2).setDirty true).advance
  | .skp x, s => s.skipIf (keyTest true x s)
  | .sknp x, s => s.skipIf (keyTest false x s)
  | .ldVxDT x, s => (s.setV x s.DT).advance
  | .ldVxK x, s => (s.setRegs (waitRegs x s)).setPC (waitPC s)
  | .ldDTVx x, s => (s.setDT (s.reg x)).advance
  | .ldSTVx x, s => (s.setST (s.reg x)).advance
  | .addI x, s => (s.setI (s.I + byteWord (s.reg x))).advance
  | .ldF x, s => (s.setI (glyphAddr (s.reg x))).advance
  | .ldB x, s => (s.setM (s.M.writeBytes (s.dataAddr 0) (bcdDigits (s.reg x)))).advance
  | .storeRegs x, s => (s.setM (s.M.writeBytes (s.dataAddr 0) (s.regBlock x))).advance
  | .loadRegs x, s => (s.setRegs (s.loadedRegs x)).advance

/-- The fault alone, or the effect. -/
def answer (f : Option (Cause × Word)) (s t : State) : State :=
  match f with
  | some (c, info) => s.setStatus (.halted c info)
  | none => t

/-! ### They are the meaning of the instruction -/

theorem guarded_eq_answer (check : Nat → Option Cause) (n : Nat) (s t : State) :
    guarded (firstFault check (s.dataAddr 0) n) s t = .next (answer (accessFault check n s) s t) := by
  unfold accessFault
  rcases firstFault check (s.dataAddr 0) n with _ | ⟨c, a⟩ <;> rfl

theorem skipOnKey_eq_answer (want : Bool) (x : Reg) (s : State) :
    skipOnKey want x s = .next (answer (keyFault x s) s (s.skipIf (keyTest want x s))) := by
  unfold skipOnKey keyFault keyTest
  rcases keyOperand (s.reg x) with _ | k <;> rfl

theorem execRet_eq_answer (s : State) : execRet s = .next (answer (faultOf .ret s) s (effect .ret s)) := by
  rcases Nat.eq_zero_or_pos s.SP.val with h | h
  · simp only [execRet_empty s h, faultOf, h, if_true, answer]
  · simp only [execRet_ok s h, faultOf, Nat.ne_of_gt h, if_false, answer, effect]

/-- One entry more, on a stack that is not full. -/
theorem succ_depth (d : Fin 17) (h : d.val < 16) : d + 1 = ⟨d.val + 1, by omega⟩ :=
  Fin.ext (by simp only [Fin.val_add, Fin.val_one]; omega)

/-- Writing an element that is in bounds. -/
theorem set_eq_setIfInBounds {α : Type} {n : Nat} (v : Vector α n) (j : Nat) (a : α) (h : j < n) :
    v.set j a h = v.setIfInBounds j a :=
  Vector.ext fun k hk => by rw [Vector.getElem_set, Vector.getElem_setIfInBounds]

theorem execCall_eq_answer (nnn : Addr) (s : State) :
    execCall nnn s = .next (answer (faultOf (.call nnn) s) s (effect (.call nnn) s)) := by
  rcases Nat.lt_or_ge s.SP.val 16 with h | h
  · simp only [execCall_ok nnn s h, faultOf, Nat.ne_of_lt h, if_false, answer, effect, succ_depth s.SP h,
      set_eq_setIfInBounds]
  · have h : s.SP.val = 16 := by omega
    simp only [execCall_full nnn s h, faultOf, h, if_true, answer]

theorem execLdVxK_eq (x : Reg) (s : State) : execLdVxK x s = .next (effect (.ldVxK x) s) := by
  simp only [execLdVxK, effect, waitRegs, waitPC]
  cases chooseKey s.pressedKeys <;> rfl

/-- Every instruction answers: its fault alone, or its effect. -/
theorem exec_eq_answer (i : Instr) (s : State) : exec i s = .next (answer (faultOf i s) s (effect i s)) := by
  cases i
  case ret => exact execRet_eq_answer s
  case call nnn => exact execCall_eq_answer nnn s
  case drw x y n => exact guarded_eq_answer readCheck n.val s _
  case ldB x => exact guarded_eq_answer writeCheck _ s _
  case storeRegs x => exact guarded_eq_answer writeCheck _ s _
  case loadRegs x => exact guarded_eq_answer readCheck (x.val + 1) s _
  case skp x => exact skipOnKey_eq_answer true x s
  case sknp x => exact skipOnKey_eq_answer false x s
  case ldVxK x => exact execLdVxK_eq x s
  all_goals rfl

/-- What an instruction's next state is: the state before with a fault, or the effect where there is none. -/
theorem exec_cases (i : Instr) (s t : State) (h : exec i s = .next t) :
    (∃ c info, t = s.setStatus (.halted c info)) ∨ (faultOf i s = none ∧ t = effect i s) := by
  rw [exec_eq_answer] at h
  cases hf : faultOf i s with
  | none => rw [hf] at h; cases h; exact .inr ⟨rfl, rfl⟩
  | some f => rw [hf] at h; cases h; exact .inl ⟨f.1, f.2, rfl⟩

end Sys2Proof.Machine
end

section
/-!
SUPPORT. The invariant: what an effect can do to the pc, to a stack entry and to memory; that every operation keeps the
invariant; and the statements about resets, steps and runs (spec/10_state.md R21, R22, R33; spec/20_memory.md R42-R44).
-/
namespace Sys2Proof.Machine

/-- The invariant is about pc, the stack entries and memory alone. -/
theorem State.Inv.congr {s t : State} (h : s.Inv) (hpc : t.pc = s.pc) (hS : t.S = s.S) (hM : t.M = s.M) : t.Inv where
  pc := by unfold State.PcBounded; rw [hpc]; exact h.pc
  stack := by unfold State.StackBounded; rw [hS]; exact h.stack
  canonical := by rw [hM]; exact h.canonical
  region := by rw [hM]; exact h.region

/-! ### What an effect does to pc -/

theorem addrWord_toNat (nnn : Addr) : (addrWord nnn).toNat = nnn.toNat := by
  simp only [addrWord, BitVec.toNat_setWidth]; omega

theorem addrWord_add_byteWord_le (nnn : Addr) (b : Byte) : (addrWord nnn + byteWord b).toNat ≤ 0x10FE := by
  simp only [addrWord, byteWord, BitVec.toNat_add, BitVec.toNat_setWidth]; omega

/-- The next pc of an effect (R62): a jump's target, a popped entry, pc itself, or one of the next two instructions. -/
theorem effect_pc (i : Instr) (s : State) :
    (effect i s).pc.toNat ≤ 0x10FE ∨ (∃ j : Fin 16, (effect i s).pc = s.S[j]) ∨
      (effect i s).pc = s.pc ∨ (effect i s).pc = s.pc + 2 ∨ (effect i s).pc = s.pc + 4 := by
  have skip : ∀ c : Bool, (s.skipIf c).pc = s.pc ∨ (s.skipIf c).pc = s.pc + 2 ∨ (s.skipIf c).pc = s.pc + 4 :=
    fun c => by cases c <;> simp
  cases i
  case ret => exact .inr (.inl ⟨⟨s.SP.val - 1, by omega⟩, rfl⟩)
  case jp nnn | call nnn => exact .inl ((addrWord_toNat nnn).trans_le (by omega))
  case jpV0 nnn => exact .inl (addrWord_add_byteWord_le nnn _)
  case seByte | sneByte | seReg | sneReg | skp | sknp => exact .inr (.inr (skip _))
  case ldVxK x =>
    have h : (effect (.ldVxK x) s).pc = waitPC s := rfl
    rw [h, waitPC]
    split <;> simp
  all_goals exact .inr (.inr (.inr (.inl rfl)))

theorem effect_pcBounded (i : Instr) (s : State) (h : s.Inv) (hpc : s.pc.toNat ≤ 0xFFE) : (effect i s).PcBounded := by
  unfold State.PcBounded
  rcases effect_pc i s with e | ⟨j, e⟩ | e | e | e
  · exact e
  · have hj := h.stack j
    rw [e]; omega
  · rw [e]; omega
  · rw [e]; bv_omega
  · rw [e]; bv_omega

/-! ### What an effect does to the stack entries -/

/-- Only CALL writes a stack entry, the first one not in use (R70). -/
theorem effect_S (i : Instr) (s : State) :
    (effect i s).S = s.S ∨ (effect i s).S = s.S.setIfInBounds s.SP.val (s.pc + 2) := by
  cases i
  case call nnn => exact .inr rfl
  all_goals exact .inl rfl

theorem effect_stackBounded (i : Instr) (s : State) (h : s.Inv) (hpc : s.pc.toNat ≤ 0xFFE) :
    (effect i s).StackBounded := fun j => by
  rcases effect_S i s with e | e
  · rw [e]; exact h.stack j
  · rw [e, Fin.getElem_fin, Vector.getElem_setIfInBounds]
    split
    · bv_omega
    · exact h.stack j

/-! ### What an effect does to memory -/

/-- A store that raises no fault stays in the program region (R44). -/
theorem storeFault_none (bs : List Byte) (s : State) (h : storeFault bs s = none) :
    bs = [] ∨ (0x200 ≤ s.I.toNat ∧ s.I.toNat + bs.length ≤ 0x1000) := by
  rw [storeFault, accessFault, Option.map_eq_none_iff, firstFault_write_none, List.length_eq_zero_iff] at h
  exact h

/-- An effect leaves memory, or stores bytes at I in the program region. -/
theorem effect_M (i : Instr) (s : State) (h : faultOf i s = none) :
    (effect i s).M = s.M ∨
      ∃ bs, storeFault bs s = none ∧ (effect i s).M = s.M.writeBytes s.I.toNat bs := by
  cases i
  case ldB x => exact .inr ⟨_, h, rfl⟩
  case storeRegs x => exact .inr ⟨_, h, rfl⟩
  all_goals exact .inl rfl

theorem writeBytes_region_of_storeFault_none (bs : List Byte) (s : State) (h : s.M.InProgramRegion)
    (hf : storeFault bs s = none) : (s.M.writeBytes s.I.toNat bs).InProgramRegion := by
  rcases storeFault_none bs s hf with rfl | ⟨h1, h2⟩
  · exact h
  · exact Memory.writeBytes_region s.M s.I.toNat bs h h1 h2

/-! ### Every operation keeps the invariant -/

theorem effect_inv (i : Instr) (s : State) (h : s.Inv) (hpc : s.pc.toNat ≤ 0xFFE) (hf : faultOf i s = none) :
    (effect i s).Inv where
  pc := effect_pcBounded i s h hpc
  stack := effect_stackBounded i s h hpc
  canonical := by
    rcases effect_M i s hf with e | ⟨bs, -, e⟩
    · rw [e]; exact h.canonical
    · rw [e]; exact Memory.writeBytes_wf _ _ bs h.canonical
  region := by
    rcases effect_M i s hf with e | ⟨bs, hb, e⟩
    · rw [e]; exact h.region
    · rw [e]; exact writeBytes_region_of_storeFault_none bs s h.region hb

theorem setStatus_inv (st : Status) (s : State) (h : s.Inv) : (s.setStatus st).Inv := h.congr rfl rfl rfl

/-- An instruction fetched where it stands keeps the invariant. -/
theorem exec_inv (i : Instr) (s t : State) (h : s.Inv) (hpc : s.pc.toNat ≤ 0xFFE) (he : exec i s = .next t) : t.Inv := by
  rcases exec_cases i s t he with ⟨c, info, rfl⟩ | ⟨hf, rfl⟩
  · exact setStatus_inv _ s h
  · exact effect_inv i s h hpc hf

/-- What an OP_CYCLE answers: a halted block's state, a fault alone, or the answer of the instruction at pc. -/
theorem opCycle_cases (rnd : Byte) (s t : State) (h : opCycle rnd s = .next t) :
    t = s ∨ (∃ c info, t = (s.withRnd rnd).setStatus (.halted c info)) ∨
      ∃ i, s.pc.toNat ≤ 0xFFE ∧ exec i (s.withRnd rnd) = .next t := by
  cases hs : s.status with
  | halted c info => rw [opCycle_halted s rnd c info hs] at h; cases h; exact .inl rfl
  | running =>
    cases hf : fetch s with
    | error a => rw [opCycle_fetch_error s rnd a hs hf] at h; cases h; exact .inr (.inl ⟨_, _, rfl⟩)
    | ok op =>
      cases hd : decode op with
      | error r => rw [opCycle_decode_error s rnd op r hs hf hd] at h; cases h; exact .inr (.inl ⟨_, _, rfl⟩)
      | ok i => exact .inr (.inr ⟨i, fetch_ok_pc s op hf, opCycle_exec s rnd op i hs hf hd ▸ h⟩)

theorem opCycle_inv (rnd : Byte) (s t : State) (h : s.Inv) (hc : opCycle rnd s = .next t) : t.Inv := by
  rcases opCycle_cases rnd s t hc with rfl | ⟨c, info, rfl⟩ | ⟨i, hpc, he⟩
  · exact h
  · exact h.congr rfl rfl rfl
  · exact exec_inv i (s.withRnd rnd) t (h.congr rfl rfl rfl) hpc he

/-- A load establishes the invariant, whatever was there before. -/
theorem created_inv (rom : List Byte) (e : Env) (h : rom.length ≤ maxRomSize) : (created rom e).Inv where
  pc := show (0x200 : Word).toNat ≤ 0x10FE by decide
  stack := fun j => by simp
  canonical := Memory.writeBytes_wf [] 0x200 rom rfl
  region := created_region rom e h

theorem opCreate_inv (rom : List Byte) (s t : State) (h : opCreate rom s = .next t) : t.Inv := by
  rcases Nat.lt_or_ge 3584 rom.length with hl | hl
  · rw [opCreate_error s rom hl] at h; cases h
  · rw [opCreate_ok s rom hl] at h; cases h; exact created_inv rom s.env hl

theorem opKey_inv (pressed : Bool) (k : Nat) (s t : State) (h : s.Inv) (hk : opKey pressed k s = .next t) : t.Inv := by
  rcases Nat.lt_or_ge k 16 with hl | hl
  · rw [opKey_ok s pressed k hl] at hk; cases hk; exact h.congr rfl rfl rfl
  · rw [opKey_refused s pressed k hl] at hk; cases hk

theorem perform_inv (op : Op) (s t : State) (h : s.Inv) (hp : perform op s = .next t) : t.Inv := by
  cases op with
  | create rom => exact opCreate_inv rom s t hp
  | cycle rnd => exact opCycle_inv rnd s t h hp
  | tick => cases hp; exact h.congr rfl rfl rfl
  | press k => exact opKey_inv true k s t h hp
  | release k => exact opKey_inv false k s t h hp
  | readDisplay => cases hp; exact h
  | clearDirty => cases hp; exact h.congr rfl rfl rfl

theorem step_of_pending (s : State) (op : Op) (ops : List Op) (h : s.env.pending = op :: ops) :
    step s = perform op (s.withPending ops) := by
  simp only [step, nextOperation, h]

/-- What a step performs: the environment's next operation, or an OP_CYCLE with a free draw, of a halted block none. -/
theorem step_cases (s : State) :
    (∃ op ops, s.env.pending = op :: ops ∧ step s = perform op (s.withPending ops)) ∨
      (s.env.pending = [] ∧ s.status = .running ∧ step s = perform (.cycle (Config.rndDraw s.env.draws)) s.takeDraw) ∨
      (s.env.pending = [] ∧ s.status ≠ .running ∧ step s = .next s) := by
  cases hp : s.env.pending with
  | cons op ops => exact .inl ⟨op, ops, rfl, step_of_pending s op ops hp⟩
  | nil =>
    cases hs : s.status with
    | running => exact .inr (.inl ⟨rfl, rfl, step_running s hp hs⟩)
    | halted c info => exact .inr (.inr ⟨rfl, by simp, step_halted s c info hp hs⟩)

/-- Settles O59: by what a step performs, and that each operation keeps the invariant. -/
theorem stepKeepsInvariant : Obligations.StepKeepsInvariant := by
  intro s t h hstep
  rcases step_cases s with ⟨op, ops, -, e⟩ | ⟨-, -, e⟩ | ⟨-, -, e⟩
  · exact perform_inv op (s.withPending ops) t (h.congr rfl rfl rfl) (e ▸ hstep)
  · exact perform_inv _ s.takeDraw t (h.congr rfl rfl rfl) (e ▸ hstep)
  · rw [e] at hstep; cases hstep; exact h

/-- Settles O58: the reset state is a load of the empty ROM, and every load establishes the invariant. -/
theorem resetMeetsInvariant : Obligations.ResetMeetsInvariant :=
  ⟨rfl, created_inv [] Env.initial (by decide)⟩

/-! ### Runs -/

/-- Every state of a run meets the invariant: a load establishes it and a step keeps it. -/
theorem Reachable.inv {s : State} (h : Reachable s) : s.Inv := by
  induction h with
  | created rom e hl => exact created_inv rom e hl
  | step s t _ hstep ih => exact stepKeepsInvariant s t ih hstep

/-- Settles O60: the invariant lists nothing below 0x200, and an unlisted byte reads as after reset. -/
theorem reachableStatesMeetInvariant : Obligations.ReachableStatesMeetInvariant := fun s h =>
  ⟨h.inv, fun a ha => Memory.read_outside_region s.M a h.inv.region (by omega)⟩

/-! ### The state after a load -/

/-- The font stands at GLYPH_BASE, whole below 0x200 (R33). -/
theorem resetByte_font (j : Fin 80) : resetByte (Config.glyphBase.val + j.val) = Config.fontData j := by
  have h : Config.glyphBase.val + j.val < 0x200 := by omega
  simp [resetByte, h]

theorem resetByte_outside_font (a : Nat) (h : ¬(Config.glyphBase.val ≤ a ∧ a < Config.glyphBase.val + 80)) :
    resetByte a = 0 := by
  have h' : ¬(Config.glyphBase.val ≤ a ∧ a - Config.glyphBase.val < 80) := by omega
  simp [resetByte, h']

/-- Memory after a load: the ROM from 0x200 on, every other byte as after reset (R33). -/
theorem created_read (rom : List Byte) (e : Env) (a : Nat) :
    (created rom e).M.read a = if h : 0x200 ≤ a ∧ a - 0x200 < rom.length then rom[a - 0x200] else resetByte a :=
  Memory.read_writeBytes [] 0x200 a rom rfl

theorem created_read_font (rom : List Byte) (e : Env) (j : Fin 80) :
    (created rom e).M.read (Config.glyphBase.val + j.val) = Config.fontData j := by
  rw [created_read, dif_neg (by omega), resetByte_font]

theorem created_read_rom (rom : List Byte) (e : Env) (j : Nat) (h : j < rom.length) :
    (created rom e).M.read (0x200 + j) = rom[j] := by
  rw [created_read, dif_pos (by omega)]
  simp only [Nat.add_sub_cancel_left]

theorem created_read_elsewhere (rom : List Byte) (e : Env) (a : Nat)
    (hfont : ¬(Config.glyphBase.val ≤ a ∧ a < Config.glyphBase.val + 80))
    (hrom : ¬(0x200 ≤ a ∧ a < 0x200 + rom.length)) : (created rom e).M.read a = 0 := by
  rw [created_read, dif_neg (by omega), resetByte_outside_font a hfont]

@[simp] theorem created_V (rom : List Byte) (e : Env) : (created rom e).V = Vector.replicate 16 0 := rfl
@[simp] theorem created_K (rom : List Byte) (e : Env) : (created rom e).K = Vector.replicate 16 false := rfl
@[simp] theorem created_FB (rom : List Byte) (e : Env) : (created rom e).FB = Framebuffer.clear := rfl

/-- A load that fits returns OK, whatever the status before (R107, R120). -/
theorem resultOf_create (rom : List Byte) (s : State) (h : rom.length ≤ 3584) : resultOf (.create rom) s = .ok := by
  have hp : perform (.create rom) s = .next (created rom s.env) := opCreate_ok s rom h
  simp only [resultOf, hp, resultOfOutcome]

/-- Settles O53: the fields of a loaded state are those of the reset state, its memory is the ROM over the font. -/
theorem resetValues : Obligations.ResetValues := by
  intro rom s h
  refine ⟨created rom s.env, opCreate_ok s rom h, resultOf_create rom s h, rfl, fun r => by simp, rfl, rfl,
    fun j => by simp, rfl, rfl, fun px py => by simp, fun k => by simp, rfl, rfl, ?_⟩
  exact ⟨created_read_font rom s.env, created_read_rom rom s.env, created_read_elsewhere rom s.env⟩

end Sys2Proof.Machine
end

section
/-!
SUPPORT. What no instruction reads (spec/10_state.md R17, R18, R23, R24, R28, R31). Two states that differ in something an
instruction does not read raise the same fault or have effects that differ there at most.
-/
namespace Sys2Proof.Machine

/-- Two states with the same fault answer related states, if a fault keeps the relation and the effects are related. -/
theorem exec_related (R : State → State → Prop) (i : Instr) (s s' : State) (hf : faultOf i s' = faultOf i s)
    (hs : ∀ st, R (s.setStatus st) (s'.setStatus st)) (he : faultOf i s = none → R (effect i s) (effect i s')) :
    ∃ t t', exec i s = .next t ∧ exec i s' = .next t' ∧ R t t' := by
  refine ⟨_, _, exec_eq_answer i s, exec_eq_answer i s', ?_⟩
  rw [hf]
  cases h : faultOf i s with
  | none => exact he h
  | some f => exact hs _

/-! ### The sound timer and the dirty flag -/

theorem faultOf_setST (i : Instr) (s : State) (b : Byte) : faultOf i (s.setST b) = faultOf i s := by
  cases i <;> rfl

theorem effect_setST (i : Instr) (s : State) (b : Byte) :
    effect i (s.setST b) = (effect i s).setST (effect i (s.setST b)).ST := by
  cases i <;> rfl

theorem faultOf_setDirty (i : Instr) (s : State) (d : Bool) : faultOf i (s.setDirty d) = faultOf i s := by
  cases i <;> rfl

theorem effect_setDirty (i : Instr) (s : State) (d : Bool) :
    effect i (s.setDirty d) = (effect i s).setDirty (effect i (s.setDirty d)).dirty := by
  cases i <;> rfl

/-- Settles O29: neither fault nor effect of an instruction looks at ST or the dirty flag. -/
theorem soundTimerAndDirtyNotRead : Obligations.SoundTimerAndDirtyNotRead := fun i s b d =>
  ⟨exec_related (fun t t' => t' = t.setST t'.ST) i s (s.setST b) (faultOf_setST i s b) (fun _ => rfl)
      fun _ => effect_setST i s b,
    exec_related (fun t t' => t' = t.setDirty t'.dirty) i s (s.setDirty d) (faultOf_setDirty i s d) (fun _ => rfl)
      fun _ => effect_setDirty i s d⟩

/-! ### The index register -/

/-- The instructions that read I (R18). -/
def ReadsIndex (i : Instr) : Prop :=
  (∃ x y n, i = .drw x y n) ∨ (∃ x, i = .addI x) ∨ (∃ x, i = .ldB x) ∨ (∃ x, i = .storeRegs x) ∨
    ∃ x, i = .loadRegs x

theorem faultOf_setI (i : Instr) (s : State) (w : Word) (h : ¬ReadsIndex i) : faultOf i (s.setI w) = faultOf i s := by
  cases i
  case drw | ldB | storeRegs | loadRegs => exact absurd (by simp [ReadsIndex]) h
  all_goals rfl

theorem effect_setI (i : Instr) (s : State) (w : Word) (h : ¬ReadsIndex i) :
    effect i (s.setI w) = (effect i s).setI (effect i (s.setI w)).I := by
  cases i
  case drw | addI | ldB | storeRegs | loadRegs => exact absurd (by simp [ReadsIndex]) h
  all_goals rfl

/-- Settles O30: fault and effect of every instruction but the five readers are those of the state with another I. -/
theorem indexReaders : Obligations.IndexReaders := by
  intro i s w
  suffices h : ReadsIndex i ∨ ∃ t t', exec i s = .next t ∧ exec i (s.setI w) = .next t' ∧ t' = t.setI t'.I by
    simpa only [ReadsIndex, or_assoc] using h
  by_cases h : ReadsIndex i
  · exact .inl h
  · exact .inr (exec_related (fun t t' => t' = t.setI t'.I) i s (s.setI w) (faultOf_setI i s w h) (fun _ => rfl)
      fun _ => effect_setI i s w h)

/-! ### The byte `rnd` -/

theorem faultOf_withRnd (i : Instr) (s : State) (rnd : Byte) : faultOf i (s.withRnd rnd) = faultOf i s := by
  cases i <;> rfl

theorem effect_withRnd (i : Instr) (s : State) (rnd : Byte) (h : ∀ x kk, i ≠ .rnd x kk) :
    effect i (s.withRnd rnd) = (effect i s).withRnd rnd := by
  cases i
  case rnd x kk => exact absurd rfl (h x kk)
  all_goals rfl

/-- Settles O32: the fault never depends on the byte, the effect of every instruction but Cxkk passes it on. -/
theorem randomByteOnlyForRnd : Obligations.RandomByteOnlyForRnd := by
  intro i s rnd h
  obtain ⟨t, t', e, e', ht⟩ := exec_related (fun t t' => t' = t.withRnd rnd) i s (s.withRnd rnd)
    (faultOf_withRnd i s rnd) (fun _ => rfl) fun _ => effect_withRnd i s rnd h
  rw [e, e', ht, mapNext]

/-! ### Stack entries not in use -/

/-- States that differ in dead entries only, as one state with its entries replaced. -/
theorem sameButDeadEntries_iff (s s' : State) :
    SameButDeadEntries s s' ↔
      ∃ e, s' = s.setStack s.SP e ∧ ∀ j : Fin 16, j.val < s.SP.val → e[j] = s.S[j] := by
  constructor
  · rintro ⟨h, hj⟩; exact ⟨s'.S, h, hj⟩
  · rintro ⟨e, rfl, hj⟩; exact ⟨rfl, hj⟩

theorem faultOf_setStack (i : Instr) (s : State) (e : Vector Word 16) :
    faultOf i (s.setStack s.SP e) = faultOf i s := by
  cases i <;> rfl

/-- CALL and RET apart, an effect leaves the stack and does not look at it. -/
theorem effect_setStack (i : Instr) (s : State) (e : Vector Word 16) (hret : i ≠ .ret) (hcall : ∀ nnn, i ≠ .call nnn) :
    effect i (s.setStack s.SP e) = (effect i s).setStack (effect i s).SP e ∧
      (effect i s).SP = s.SP ∧ (effect i s).S = s.S := by
  cases i
  case ret => exact absurd rfl hret
  case call nnn => exact absurd rfl (hcall nnn)
  all_goals exact ⟨rfl, rfl, rfl⟩

/-- RET reads the last entry in use only. -/
theorem effect_ret_sameButDeadEntries (s s' : State) (h : SameButDeadEntries s s') (h0 : s.SP.val ≠ 0) :
    SameButDeadEntries (effect .ret s) (effect .ret s') := by
  obtain ⟨e, rfl, he⟩ := (sameButDeadEntries_iff s s').1 h
  have htop : e[s.SP.val - 1]'(by omega) = s.S[s.SP.val - 1]'(by omega) :=
    he ⟨s.SP.val - 1, by omega⟩ (Nat.sub_lt (Nat.pos_of_ne_zero h0) Nat.one_pos)
  refine ⟨?_, fun j hj => he j (by simp only [effect, State.setPC_SP, State.setStack_SP] at hj; omega)⟩
  simp only [effect, State.setStack_S, State.setStack_SP, htop]
  rfl

/-- CALL writes the first entry not in use, the same in both states. -/
theorem effect_call_sameButDeadEntries (nnn : Addr) (s s' : State) (h : SameButDeadEntries s s') (h0 : s.SP.val ≠ 16) :
    SameButDeadEntries (effect (.call nnn) s) (effect (.call nnn) s') := by
  obtain ⟨e, rfl, he⟩ := (sameButDeadEntries_iff s s').1 h
  refine ⟨rfl, fun j hj => ?_⟩
  simp only [effect, State.setPC_SP, State.setStack_SP, succ_depth s.SP (by omega)] at hj
  simp only [effect, State.setPC_S, State.setStack_S, State.setStack_SP, State.setStack_pc, Fin.getElem_fin,
    Vector.getElem_setIfInBounds]
  split
  · rfl
  · exact he j (by omega)

theorem effect_sameButDeadEntries (i : Instr) (s s' : State) (h : SameButDeadEntries s s') (hf : faultOf i s = none) :
    SameButDeadEntries (effect i s) (effect i s') := by
  by_cases hret : i = .ret
  · subst hret; exact effect_ret_sameButDeadEntries s s' h fun h0 => by simp [faultOf, h0] at hf
  · by_cases hcall : ∃ nnn, i = .call nnn
    · obtain ⟨nnn, rfl⟩ := hcall
      exact effect_call_sameButDeadEntries nnn s s' h fun h0 => by simp [faultOf, h0] at hf
    · obtain ⟨e, rfl, he⟩ := (sameButDeadEntries_iff s s').1 h
      obtain ⟨heff, hSP, hS⟩ := effect_setStack i s e hret (not_exists.1 hcall)
      exact (sameButDeadEntries_iff _ _).2 ⟨e, heff, by rw [hSP, hS]; exact he⟩

theorem exec_sameButDeadEntries (i : Instr) (s s' : State) (h : SameButDeadEntries s s') :
    ∃ t t', exec i s = .next t ∧ exec i s' = .next t' ∧ SameButDeadEntries t t' := by
  refine exec_related SameButDeadEntries i s s' ?_ (fun st => ?_) (effect_sameButDeadEntries i s s' h)
  · obtain ⟨e, rfl, -⟩ := (sameButDeadEntries_iff s s').1 h
    exact faultOf_setStack i s e
  · obtain ⟨e, rfl, he⟩ := (sameButDeadEntries_iff s s').1 h
    exact ⟨rfl, he⟩

/-! ### Whole steps from states that differ in dead entries only -/

/-- Where `r` has a next state, `r'` has one that differs from it in dead entries only. -/
def AnswersAlike (r r' : Result) : Prop := ∀ t, r = .next t → ∃ t', r' = .next t' ∧ SameButDeadEntries t t'

theorem AnswersAlike.next {t t' : State} (h : SameButDeadEntries t t') : AnswersAlike (.next t) (.next t') := by
  rintro u ⟨⟩; exact ⟨t', rfl, h⟩

theorem AnswersAlike.refused (r : Refusal) (r' : Result) : AnswersAlike (.refused r) r' := by
  rintro u ⟨⟩

section
variable (s : State) (e : Vector Word 16) (h : ∀ j : Fin 16, j.val < s.SP.val → e[j] = s.S[j])
include h

theorem opCycle_setStack_alike (rnd : Byte) : AnswersAlike (opCycle rnd s) (opCycle rnd (s.setStack s.SP e)) := by
  cases hs : s.status with
  | halted c info =>
    rw [opCycle_halted s rnd c info hs, opCycle_halted (s.setStack s.SP e) rnd c info hs]
    exact .next ⟨rfl, h⟩
  | running =>
    cases hf : fetch s with
    | error a =>
      rw [opCycle_fetch_error s rnd a hs hf, opCycle_fetch_error (s.setStack s.SP e) rnd a hs hf]
      exact .next ⟨rfl, h⟩
    | ok op =>
      cases hd : decode op with
      | error r =>
        rw [opCycle_decode_error s rnd op r hs hf hd, opCycle_decode_error (s.setStack s.SP e) rnd op r hs hf hd]
        exact .next ⟨rfl, h⟩
      | ok i =>
        rw [opCycle_exec s rnd op i hs hf hd, opCycle_exec (s.setStack s.SP e) rnd op i hs hf hd]
        obtain ⟨t, t', ht, ht', hR⟩ :=
          exec_sameButDeadEntries i (s.withRnd rnd) ((s.setStack s.SP e).withRnd rnd) ⟨rfl, h⟩
        rw [ht, ht']
        exact .next hR

theorem opKey_setStack_alike (pressed : Bool) (k : Nat) :
    AnswersAlike (opKey pressed k s) (opKey pressed k (s.setStack s.SP e)) := by
  rcases Nat.lt_or_ge k 16 with hk | hk
  · rw [opKey_ok s pressed k hk, opKey_ok (s.setStack s.SP e) pressed k hk]
    exact .next ⟨rfl, h⟩
  · rw [opKey_refused s pressed k hk]
    exact .refused _ _

theorem perform_setStack_alike (op : Op) : AnswersAlike (perform op s) (perform op (s.setStack s.SP e)) := by
  cases op with
  | create rom => exact fun t ht => ⟨t, ht, rfl, fun _ _ => rfl⟩
  | cycle rnd => exact opCycle_setStack_alike s e h rnd
  | tick => exact .next ⟨rfl, h⟩
  | press k => exact opKey_setStack_alike s e h true k
  | release k => exact opKey_setStack_alike s e h false k
  | readDisplay => exact .next ⟨rfl, h⟩
  | clearDirty => exact .next ⟨rfl, h⟩

theorem step_setStack_alike : AnswersAlike (step s) (step (s.setStack s.SP e)) := by
  cases hp : s.env.pending with
  | cons op ops =>
    rw [step_of_pending s op ops hp, step_of_pending (s.setStack s.SP e) op ops hp]
    exact perform_setStack_alike (s.withPending ops) e h op
  | nil =>
    cases hs : s.status with
    | running =>
      rw [step_running s hp hs, step_running (s.setStack s.SP e) hp hs]
      exact opCycle_setStack_alike s.takeDraw e h _
    | halted c info =>
      rw [step_halted s c info hp hs, step_halted (s.setStack s.SP e) c info hp hs]
      exact .next ⟨rfl, h⟩

end

/-- Settles O31: every operation keeps two states apart in dead entries only; CALL overwrites the first dead entry and RET
reads the last one in use. -/
theorem deadStackEntriesUnobservable : Obligations.DeadStackEntriesUnobservable := by
  intro s s' t h hstep
  obtain ⟨e, rfl, he⟩ := (sameButDeadEntries_iff s s').1 h
  exact step_setStack_alike s e he t hstep

end Sys2Proof.Machine
end

section
/-!
SUPPORT. Which instructions write each piece of state, and that VF is read only where it is named (spec/10_state.md R14-R18,
R22, R24, R26-R28; spec/20_memory.md R39).
-/
namespace Sys2Proof.Machine

/-! ### Who writes I, the stack, the timers, the display and memory -/

/-- Settles O27: a fault changes the status alone, and each effect writes what its instruction is listed for. -/
theorem writersOfEachState : Obligations.WritersOfEachState := by
  intro i s t h
  rcases exec_cases i s t h with ⟨c, info, rfl⟩ | ⟨-, rfl⟩
  · simp
  · cases i <;> simp [effect]

/-! ### Who writes VF -/

theorem flagByte_cases (f : Bool) : flagByte f = 0 ∨ flagByte f = 1 := by
  cases f <;> simp [flagByte]

theorem val_lt_of_ne_VF (x : Reg) (h : x ≠ VF) : x.val < 15 := by
  have : x.val ≠ 15 := fun e => h (Fin.ext e)
  omega

theorem State.setV_VF_of_ne (s : State) (x : Reg) (b : Byte) (h : x ≠ VF) : (s.setV x b).V[VF] = s.V[VF] := by
  rw [State.setV_getElem, if_neg h]

theorem State.setResultFlag_VF (s : State) (x : Reg) (b : Byte) (f : Bool) :
    (s.setResultFlag x b f).V[VF] = flagByte f := by
  rw [State.setResultFlag_getElem, if_pos rfl]

theorem State.setFlag_VF (s : State) (f : Bool) : (s.setFlag f).V[VF] = flagByte f := by
  rw [State.setFlag, State.setV_getElem, if_pos rfl]

theorem State.loadedRegs_VF (s : State) (x : Reg) (h : x ≠ VF) : (s.loadedRegs x)[VF] = s.V[VF] := by
  rw [State.loadedRegs_getElem, if_neg (Fin.not_le.2 (val_lt_of_ne_VF x h))]

theorem waitRegs_VF (s : State) (x : Reg) (h : x ≠ VF) : (waitRegs x s)[VF] = s.V[VF] := by
  unfold waitRegs
  cases chooseKey s.pressedKeys with
  | none => rfl
  | some k => exact s.setV_VF_of_ne x (keyByte k) h

/-- Settles O26: a flag writer's effect ends with VF the flag, a register writer's leaves VF unless VF is its x. -/
theorem writersOfVF : Obligations.WritersOfVF := by
  intro i s t h
  rcases exec_cases i s t h with ⟨c, info, rfl⟩ | ⟨-, rfl⟩
  · cases i
    case addReg | subReg | shr | subnReg | shl | drw => exact .inr (.inr ⟨c, info, faultOnly_setStatus c info s⟩)
    case ldByte | addByte | ldReg | orReg | andReg | xorReg | rnd | ldVxDT | ldVxK | loadRegs => exact fun _ => rfl
    all_goals rfl
  · have flag : ∀ (u : State) (f : Bool), u.V[VF] = flagByte f →
        u.V[VF] = 0 ∨ u.V[VF] = 1 ∨ ∃ c info, FaultOnly c info s u :=
      fun u f hu => by rw [hu]; exact (flagByte_cases f).imp_right .inl
    cases i
    case addReg | subReg | shr | subnReg | shl => exact flag _ _ (State.setResultFlag_VF s _ _ _)
    case drw x y n => exact flag _ _ (State.setFlag_VF (s.setFB (drawn x y n s).1) _)
    case ldByte | addByte | ldReg | orReg | andReg | xorReg | rnd | ldVxDT => exact s.setV_VF_of_ne _ _
    case ldVxK x => exact waitRegs_VF s x
    case loadRegs x => exact s.loadedRegs_VF x
    all_goals rfl

/-! ### VF is read only where it is named -/

section
variable (s : State) (x y : Reg) (b c : Byte)

theorem State.reg_setVF (h : x ≠ VF) : (s.setV VF b).reg x = s.reg x := by
  rw [State.reg_eq, State.setV_getElem, if_neg (Ne.symm h), State.reg_eq]

theorem State.setVF_setV (h : x ≠ VF) : (s.setV VF b).setV x c = (s.setV x c).setV VF b := by
  simp only [State.setV]
  rw [Vector.set_comm _ _ fun e => h (Fin.ext e.symm)]

theorem State.setVF_setFlag (f : Bool) : (s.setV VF b).setFlag f = s.setFlag f := by
  simp only [State.setFlag, State.setV, Vector.set_set]

theorem State.setVF_setResultFlag (h : x ≠ VF) (f : Bool) :
    (s.setV VF b).setResultFlag x c f = s.setResultFlag x c f := by
  simp only [State.setResultFlag, s.setVF_setV x b c h, State.setVF_setFlag]

theorem State.regBlock_setVF (h : x ≠ VF) : (s.setV VF b).regBlock x = s.regBlock x := by
  refine List.ext_getElem (by simp only [State.regBlock_length]) fun j h1 h2 => ?_
  rw [State.regBlock_length] at h1
  rw [State.regBlock_getElem, State.regBlock_getElem]
  have hx := val_lt_of_ne_VF x h
  exact Vector.getElem_set_ne (by omega) _ (show (15 : Nat) ≠ j by omega)

theorem State.loadedRegs_setVF (h : x ≠ VF) : (s.setV VF b).loadedRegs x = (s.loadedRegs x).set VF b := by
  refine Vector.ext fun j hj => ?_
  have e := State.loadedRegs_getElem (s.setV VF b) x ⟨j, hj⟩
  have e' := State.loadedRegs_getElem s x ⟨j, hj⟩
  rw [Fin.getElem_fin] at e e'
  rw [e, Vector.getElem_set, e', State.setV_getElem]
  by_cases hj' : (⟨j, hj⟩ : Reg) ≤ x
  · have hVF : VF.val ≠ j := (lt_of_le_of_lt (show j ≤ x.val from hj') (val_lt_of_ne_VF x h)).ne'
    rw [if_pos hj', if_neg hVF, if_pos hj']
    rfl
  · simp only [if_neg hj', Fin.ext_iff]

theorem waitRegs_setVF (h : x ≠ VF) : waitRegs x (s.setV VF b) = (waitRegs x s).set VF b := by
  have hk : (s.setV VF b).pressedKeys = s.pressedKeys := rfl
  unfold waitRegs
  rw [hk]
  cases chooseKey s.pressedKeys with
  | none => rfl
  | some k => exact congrArg State.V (s.setVF_setV x b (keyByte k) h)

end

theorem keyFault_setVF (x : Reg) (s : State) (b : Byte) (h : x ≠ VF) : keyFault x (s.setV VF b) = keyFault x s := by
  simp only [keyFault, s.reg_setVF x b h]

theorem keyTest_setVF (want : Bool) (x : Reg) (s : State) (b : Byte) (h : x ≠ VF) :
    keyTest want x (s.setV VF b) = keyTest want x s := by
  simp only [keyTest, s.reg_setVF x b h]
  rfl

theorem drawn_setVF (x y : Reg) (n : Fin 16) (s : State) (b : Byte) (hx : x ≠ VF) (hy : y ≠ VF) :
    drawn x y n (s.setV VF b) = drawn x y n s := by
  simp only [drawn, s.reg_setVF x b hx, s.reg_setVF y b hy]
  rfl

theorem faultOf_setVF (i : Instr) (s : State) (b : Byte) (h : ¬NamesVF i) : faultOf i (s.setV VF b) = faultOf i s := by
  cases i
  case ldB x => rfl
  case storeRegs x => simp only [faultOf, s.regBlock_setVF x b h]; rfl
  case skp x | sknp x => exact keyFault_setVF _ s b h
  all_goals rfl

/-- The effect of an instruction that does not name VF passes VF on, or overwrites it with a flag. -/
theorem effect_setVF (i : Instr) (s : State) (b : Byte) (h : ¬NamesVF i) :
    effect i (s.setV VF b) = (effect i s).setV VF b ∨ effect i (s.setV VF b) = effect i s := by
  cases i
  case seReg x y | sneReg x y =>
    obtain ⟨hx, hy⟩ := not_or.1 h
    exact .inl (by simp only [effect, s.reg_setVF x b hx, s.reg_setVF y b hy]; rfl)
  case ldReg x y | orReg x y | andReg x y | xorReg x y =>
    obtain ⟨hx, hy⟩ := not_or.1 h
    exact .inl (by simp only [effect, s.reg_setVF x b hx, s.reg_setVF y b hy, s.setVF_setV x b _ hx]; rfl)
  case addReg x y | subReg x y | subnReg x y =>
    obtain ⟨hx, hy⟩ := not_or.1 h
    exact .inr (by simp only [effect, s.reg_setVF x b hx, s.reg_setVF y b hy, s.setVF_setResultFlag x b _ hx])
  case shr x y | shl x y =>
    exact .inr (by simp only [effect, s.reg_setVF x b h, s.setVF_setResultFlag x b _ h])
  case drw x y n =>
    obtain ⟨hx, hy⟩ := not_or.1 h
    have hfb : (s.setV VF b).setFB (drawn x y n s).1 = (s.setFB (drawn x y n s).1).setV VF b := rfl
    exact .inr (by simp only [effect, drawn_setVF x y n s b hx hy, hfb, State.setVF_setFlag])
  case jpV0 nnn => exact .inl (by simp only [effect, s.reg_setVF 0 b (by decide)]; rfl)
  case skp x | sknp x => exact .inl (by simp only [effect, keyTest_setVF _ x s b h]; rfl)
  case ldVxK x => exact .inl (by simp only [effect, waitRegs_setVF s x b h]; rfl)
  case loadRegs x => exact .inl (by simp only [effect, s.loadedRegs_setVF x b h]; rfl)
  case storeRegs x => exact .inl (by simp only [effect, s.regBlock_setVF x b h]; rfl)
  case ldByte x kk | rnd x kk => exact .inl (by simp only [effect, s.setVF_setV x b _ h]; rfl)
  case ldVxDT x => exact .inl (by simp only [effect, s.setVF_setV x b _ h]; rfl)
  case addByte x kk => exact .inl (by simp only [effect, s.reg_setVF x b h, s.setVF_setV x b _ h]; rfl)
  case seByte x kk | sneByte x kk => exact .inl (by simp only [effect, s.reg_setVF x b h]; rfl)
  case ldDTVx x | ldSTVx x | addI x | ldF x | ldB x => exact .inl (by simp only [effect, s.reg_setVF x b h]; rfl)
  all_goals exact .inl rfl

/-- A state with VF rewritten, or left, differs from the state before in VF at most. -/
theorem eq_setVF_of (t t' : State) (b : Byte) (h : t' = t.setV VF b ∨ t' = t) : t' = t.setV VF t'.V[VF] := by
  rcases h with rfl | rfl
  · rw [State.setV_getElem, if_pos rfl]
  · simp only [State.setV, Fin.getElem_fin, Vector.set_getElem_self]

/-- Settles O28: what an instruction does not name as VF it does not read, so its effect passes VF on or overwrites it. -/
theorem vfIsNotReadImplicitly : Obligations.VFIsNotReadImplicitly := by
  refine ⟨fun i s b h => ?_, fun rom e => by simp⟩
  exact exec_related (fun t t' => t' = t.setV VF t'.V[VF]) i s (s.setV VF b) (faultOf_setVF i s b h)
    (fun st => eq_setVF_of (s.setStatus st) _ b (.inl rfl))
    fun _ => eq_setVF_of (effect i s) _ b (effect_setVF i s b h)

end Sys2Proof.Machine
end

section
/-!
SUPPORT. Memory and fetch (spec/20_memory.md R34, R36, R42-R44, R47, R48, R51): the fetched word as a number, a canonical
memory determined by its reads, stored bytes as the next fetch sees them, and runs as lists of operations.
-/
namespace Sys2Proof.Machine

/-! ### Fetch -/

/-- The fetched word's value: bits 15:8 from the first byte, bits 7:0 from the second (R36). -/
theorem opcodeOfBytes_toNat (hi lo : Byte) : (opcodeOfBytes hi lo).toNat = 256 * hi.toNat + lo.toNat := by
  have h : (opcodeOfBytes hi lo).toNat = hi.toNat <<< 8 ||| lo.toNat := BitVec.toNat_append hi lo
  rw [h, ← Nat.shiftLeft_add_eq_or_of_lt lo.isLt, Nat.shiftLeft_eq]
  omega

/-- Settles O38: where the two reads pass, the word of their bytes; else the first address above 0xFFF. -/
theorem fetchIsBigEndian : Obligations.FetchIsBigEndian := fun s =>
  ⟨fun h => ⟨_, fetch_ok s h, opcodeOfBytes_toNat _ _⟩,
    fun h => by rw [fetch_error s (by omega), h]; rfl,
    fun h => by rw [fetch_error s (by omega), max_eq_left h]⟩

/-! ### A canonical memory is what it reads as -/

section
variable (m : Memory) (c : Host.Cell)

theorem Memory.read_cons_self : Memory.read (c :: m) c.1 = c.2 := if_pos rfl

theorem Memory.read_cons_of_ne (a : Nat) (h : a ≠ c.1) : Memory.read (c :: m) a = m.read a := if_neg h

/-- Below its first listed address a canonical memory reads as unlisted. -/
theorem Memory.read_cons_of_lt (hm : Memory.wf (c :: m) = true) (a : Nat) (h : a < c.1) :
    Memory.read (c :: m) a = resetByte a := by
  obtain ⟨-, hlt, -⟩ := (Memory.wf_cons m c).1 hm
  refine Memory.read_of_below _ a fun d hd => ?_
  rcases List.mem_cons.1 hd with rfl | hd
  · exact h
  · exact h.trans (hlt d hd)

/-- A canonical memory reads its first listed byte, which an unlisted address would not. -/
theorem Memory.read_cons_ne_resetByte (hm : Memory.wf (c :: m) = true) :
    Memory.read (c :: m) c.1 ≠ resetByte c.1 := by
  obtain ⟨hc, -, -⟩ := (Memory.wf_cons m c).1 hm
  rwa [Memory.read_cons_self]

theorem Memory.wf_tail (hm : Memory.wf (c :: m) = true) : m.wf = true := by
  obtain ⟨-, -, htail⟩ := (Memory.wf_cons m c).1 hm
  exact htail

/-- The byte in front taken away, its address reads as unlisted. -/
theorem Memory.read_tail (hm : Memory.wf (c :: m) = true) (a : Nat) :
    m.read a = if a = c.1 then resetByte a else Memory.read (c :: m) a := by
  obtain ⟨-, hlt, -⟩ := (Memory.wf_cons m c).1 hm
  split
  · rename_i h; subst h; exact Memory.read_of_below m c.1 hlt
  · rename_i h; exact (Memory.read_cons_of_ne m c a h).symm

end

/-- Of two canonical memories that read alike, neither begins below the other. -/
theorem Memory.first_le_of_read_eq (m m' : Memory) (c c' : Host.Cell) (hm : Memory.wf (c :: m) = true)
    (hm' : Memory.wf (c' :: m') = true) (h : ∀ a, Memory.read (c :: m) a = Memory.read (c' :: m') a) : c'.1 ≤ c.1 := by
  by_contra hlt
  exact Memory.read_cons_ne_resetByte m c hm ((h c.1).trans (Memory.read_cons_of_lt m' c' hm' c.1 (by omega)))

/-- Settles O46: by induction on the one list, they begin with the same byte and their tails read alike again. -/
theorem canonicalMemoriesAreEqual : Obligations.CanonicalMemoriesAreEqual := by
  intro m
  induction m with
  | nil =>
    rintro (_ | ⟨c', m'⟩) - hm' h
    · rfl
    · exact absurd (h c'.1).symm (Memory.read_cons_ne_resetByte m' c' hm')
  | cons c m ih =>
    rintro (_ | ⟨c', m'⟩) hm hm' h
    · exact absurd (h c.1) (Memory.read_cons_ne_resetByte m c hm)
    · have haddr : c.1 = c'.1 :=
        le_antisymm (Memory.first_le_of_read_eq m' m c' c hm' hm fun a => (h a).symm)
          (Memory.first_le_of_read_eq m m' c c' hm hm' h)
      have hbyte : c.2 = c'.2 := by
        rw [← Memory.read_cons_self m c, h, haddr, Memory.read_cons_self]
      have htail : m = m' :=
        ih m' (Memory.wf_tail m c hm) (Memory.wf_tail m' c' hm') fun a => by
          rw [Memory.read_tail m c hm, Memory.read_tail m' c' hm', haddr, h]
      rw [Prod.ext haddr hbyte, htail]

/-! ### Stored bytes are fetched -/

/-- After V[0] .. V[x] are stored at I, the byte at I + j is V[j]. -/
theorem State.read_writeBytes_regBlock (s : State) (x j : Reg) (hm : s.M.wf = true) (h : j.val ≤ x.val) :
    (s.M.writeBytes s.I.toNat (s.regBlock x)).read (s.I.toNat + j.val) = s.V[j] := by
  have hj : j.val < (s.regBlock x).length := by rw [State.regBlock_length]; omega
  rw [Memory.read_writeBytes _ _ _ _ hm, dif_pos (by omega)]
  simp only [Nat.add_sub_cancel_left, State.regBlock_getElem, Fin.getElem_fin]

/-- Fx55 that leaves the block running has stored its registers, all below 0x1000. -/
theorem exec_storeRegs_running (x : Reg) (s t : State) (h : exec (.storeRegs x) s = .next t) (ht : t.status = .running) :
    s.I.toNat + (x.val + 1) ≤ 0x1000 ∧ t = (s.setM (s.M.writeBytes s.I.toNat (s.regBlock x))).advance := by
  rcases exec_storeRegs_cases x s with ⟨-, hI, e⟩ | ⟨c, info, e⟩
  · rw [e] at h; cases h; exact ⟨hI, rfl⟩
  · rw [e] at h; cases h; cases ht

/-- Settles O47: both bytes of the word lie in the stored block, and nothing is written after it. -/
theorem storesAreFetched : Obligations.StoresAreFetched := by
  intro x j j' s t target hm _ hexec ht hj' hx htarget
  obtain ⟨hI, rfl⟩ := exec_storeRegs_running x s t hexec ht
  have hx' : j'.val ≤ x.val := hx
  refine ⟨_, fetch_ok _ (by simp only [State.setPC_pc]; omega), ?_⟩
  have hnext : target.toNat + 1 = s.I.toNat + j'.val := by omega
  rw [opcodeOfBytes_toNat]
  simp only [State.setPC_pc, State.setPC_M, State.advance_M, State.setM_M, hnext]
  rw [htarget, s.read_writeBytes_regBlock x j hm (by omega), s.read_writeBytes_regBlock x j' hm hx]

/-! ### The reserved region -/

/-- Below 0x200 a state that meets the invariant reads as after reset (R42, R44). -/
theorem State.Inv.read_reserved {s : State} (h : s.Inv) (a : Nat) (ha : a < 0x200) : s.M.read a = resetByte a :=
  Memory.read_outside_region s.M a h.region (by omega)

/-- Settles O48: a step keeps the invariant, and the invariant fixes what every byte below 0x200 reads as. -/
theorem reservedRegionKeeps : Obligations.ReservedRegionKeeps := fun s t h hstep a ha =>
  ((stepKeepsInvariant s t h hstep).read_reserved a ha).trans (h.read_reserved a ha).symm

/-! ### Runs as lists of operations

No operation looks at the operations that come after it: it commutes with a change of that list. -/

section
variable (ops : List Op) (s : State)

theorem faultOf_withPending (i : Instr) : faultOf i (s.withPending ops) = faultOf i s := by
  cases i <;> rfl

theorem effect_withPending (i : Instr) : effect i (s.withPending ops) = (effect i s).withPending ops := by
  cases i <;> rfl

theorem exec_withPending (i : Instr) : exec i (s.withPending ops) = mapNext (State.withPending ops) (exec i s) := by
  obtain ⟨t, t', e, e', ht⟩ := exec_related (fun t t' => t' = t.withPending ops) i s (s.withPending ops)
    (faultOf_withPending ops s i) (fun _ => rfl) fun _ => effect_withPending ops s i
  rw [e, e', ht, mapNext]

theorem opCycle_withPending (rnd : Byte) :
    opCycle rnd (s.withPending ops) = mapNext (State.withPending ops) (opCycle rnd s) := by
  cases hs : s.status with
  | halted c info => rw [opCycle_halted s rnd c info hs, opCycle_halted (s.withPending ops) rnd c info hs]; rfl
  | running =>
    cases hf : fetch s with
    | error a =>
      rw [opCycle_fetch_error s rnd a hs hf, opCycle_fetch_error (s.withPending ops) rnd a hs hf]; rfl
    | ok op =>
      cases hd : decode op with
      | error r =>
        rw [opCycle_decode_error s rnd op r hs hf hd, opCycle_decode_error (s.withPending ops) rnd op r hs hf hd]; rfl
      | ok i =>
        rw [opCycle_exec s rnd op i hs hf hd, opCycle_exec (s.withPending ops) rnd op i hs hf hd]
        exact exec_withPending ops (s.withRnd rnd) i

theorem opCreate_withPending (rom : List Byte) :
    opCreate rom (s.withPending ops) = mapNext (State.withPending ops) (opCreate rom s) := by
  rcases Nat.lt_or_ge 3584 rom.length with h | h
  · simp only [opCreate_error _ rom h, mapNext]
  · simp only [opCreate_ok _ rom h, mapNext]; rfl

theorem opKey_withPending (pressed : Bool) (k : Nat) :
    opKey pressed k (s.withPending ops) = mapNext (State.withPending ops) (opKey pressed k s) := by
  rcases Nat.lt_or_ge k 16 with h | h
  · simp only [opKey_ok _ pressed k h, mapNext]; rfl
  · simp only [opKey_refused _ pressed k h, mapNext]

theorem perform_withPending (op : Op) :
    perform op (s.withPending ops) = mapNext (State.withPending ops) (perform op s) := by
  cases op with
  | create rom => exact opCreate_withPending ops s rom
  | cycle rnd => exact opCycle_withPending ops s rnd
  | press k => exact opKey_withPending ops s true k
  | release k => exact opKey_withPending ops s false k
  | tick | readDisplay | clearDirty => rfl

end

/-- Settles O57: by induction on the list, the first step performs its first operation and leaves the others pending. -/
theorem runsPerformOperationsInOrder : Obligations.RunsPerformOperationsInOrder := by
  intro ops
  induction ops with
  | nil => exact fun s => rfl
  | cons op ops ih =>
    intro s
    have hstep : core.step (s.withPending (op :: ops)) = mapNext (State.withPending ops) (perform op s) :=
      (step_pending s op ops).trans (perform_withPending ops s op)
    simp only [List.length_cons, Host.Core.run, performAll, hstep, perform_withPending [] s op]
    cases perform op s with
    | next t => exact ih t
    | fault r => rfl
    | refused r => rfl

end Sys2Proof.Machine
end

section
/-!
SUPPORT. Encoding and decoding (spec/30_encoding.md R53-R57): decoding as the inverse of encoding, and the fields of a
word as parts of its value.
-/
namespace Sys2Proof

/-! ### A word from its fixed fields -/

section
variable {op : Word} {h f : BitVec 4} {kk : Byte}

theorem wordAddr_of_fields (hh : fieldH op = h) : wordAddr h (fieldNNN op) = op := by
  rw [← hh, ← word_eq_addr]

theorem wordXKK_of_fields (hh : fieldH op = h) : wordXKK h (fieldX op) (fieldKK op) = op := by
  rw [← hh, ← word_eq_xkk]

theorem wordXFF_of_fields (hh : fieldH op = h) (hk : fieldKK op = kk) : wordXKK h (fieldX op) kk = op := by
  rw [← hk, wordXKK_of_fields hh]

theorem wordXYF_of_fields (hh : fieldH op = h) (hf : fieldF op = f) : wordXYF h (fieldX op) (fieldY op) f = op := by
  rw [← hh, ← hf, ← word_eq_xyf]

end

/-! ### Decoding and encoding are inverse -/

/-- The nibble left after the fifteen that the decoder names. -/
theorem nibble_eq_fifteen : ∀ b : BitVec 4, ¬b = 0x0#4 → ¬b = 0x1#4 → ¬b = 0x2#4 → ¬b = 0x3#4 → ¬b = 0x4#4 →
    ¬b = 0x5#4 → ¬b = 0x6#4 → ¬b = 0x7#4 → ¬b = 0x8#4 → ¬b = 0x9#4 → ¬b = 0xA#4 → ¬b = 0xB#4 → ¬b = 0xC#4 →
    ¬b = 0xD#4 → ¬b = 0xE#4 → b = 0xF#4 := by
  intros; bv_omega

theorem encode_of_decode8 (op : Word) (i : Instr) (hh : fieldH op = 0x8#4) (h : decode8 op = .ok i) :
    encode i = op := by
  unfold decode8 at h
  split at h <;> cases h <;> exact wordXYF_of_fields hh ‹_›

theorem encode_of_decodeE (op : Word) (i : Instr) (hh : fieldH op = 0xE#4) (h : decodeE op = .ok i) :
    encode i = op := by
  unfold decodeE at h
  split at h <;> cases h <;> exact wordXFF_of_fields hh ‹_›

theorem encode_of_decodeF (op : Word) (i : Instr) (hh : fieldH op = 0xF#4) (h : decodeF op = .ok i) :
    encode i = op := by
  unfold decodeF at h
  split at h <;> cases h <;> exact wordXFF_of_fields hh ‹_›

/-- What a word decodes to has that word: in each family the operands are the fields that its format leaves free. -/
theorem encode_of_decode (op : Word) (i : Instr) (h : decode op = .ok i) : encode i = op := by
  unfold decode at h
  split at h
  case h_1 => split_ifs at h <;> cases h <;> exact Eq.symm ‹_›
  case h_2 hh | h_3 hh | h_11 hh | h_12 hh => cases h; exact wordAddr_of_fields hh
  case h_4 hh | h_5 hh | h_7 hh | h_8 hh | h_13 hh => cases h; exact wordXKK_of_fields hh
  case h_6 hh | h_10 hh => split at h <;> cases h; exact wordXYF_of_fields hh ‹_›
  case h_14 hh => cases h; exact wordXYF_of_fields hh rfl
  case h_9 hh => exact encode_of_decode8 op i hh h
  case h_15 hh => exact encode_of_decodeE op i hh h
  case h_16 => exact encode_of_decodeF op i (by apply nibble_eq_fifteen <;> assumption) h

/-- The encoder's word decodes to its instruction: the decoder sees the fields the encoder put in. -/
theorem decode_encode (i : Instr) : decode (encode i) = .ok i := by
  cases i
  case cls | ret => decide
  all_goals simp [encode, decode, decode8, decodeE, decodeF]

/-- Settles O36: from left to right by the branches of the decoder, from right to left by the instruction. -/
theorem decodeEncodeInverse : Obligations.DecodeEncodeInverse := fun op i =>
  ⟨encode_of_decode op i, fun h => h ▸ decode_encode i⟩

/-- Settles O37: each word is the encoder's word for its instruction. -/
theorem writtenWordsDecode : Obligations.WrittenWordsDecode := by
  refine ⟨?_, ?_, ?_, ?_, ?_, ?_, ?_⟩ <;> exact (decodeEncodeInverse _ _).2 (by decide)

/-! ### The fields of a word as parts of its value -/

section
variable (op : Word)

theorem fieldH_toNat : (fieldH op).toNat = op.toNat / 4096 := by
  rw [fieldH, BitVec.extractLsb'_toNat, Nat.shiftRight_eq_div_pow]; omega

theorem fieldF_toNat : (fieldF op).toNat = op.toNat % 16 := BitVec.extractLsb'_toNat ..

theorem fieldKK_toNat : (fieldKK op).toNat = op.toNat % 256 := BitVec.extractLsb'_toNat ..

theorem fieldNNN_toNat : (fieldNNN op).toNat = op.toNat % 4096 := BitVec.extractLsb'_toNat ..

theorem fieldN_val : (fieldN op).val = op.toNat % 16 := fieldF_toNat op

theorem fieldX_val : (fieldX op).val = op.toNat / 256 % 16 := by
  rw [← Nat.shiftRight_eq_div_pow op.toNat 8]; exact BitVec.extractLsb'_toNat ..

theorem fieldY_val : (fieldY op).val = op.toNat / 16 % 16 := by
  rw [← Nat.shiftRight_eq_div_pow op.toNat 4]; exact BitVec.extractLsb'_toNat ..

end

/-- Settles O33: a field is its bits shifted down and cut off, as a quotient and a remainder. -/
theorem fieldExtraction : Obligations.FieldExtraction := fun op =>
  ⟨fieldH_toNat op, fieldX_val op, fieldY_val op, fieldKK_toNat op, fieldNNN_toNat op, fieldN_val op, fieldF_toNat op⟩

end Sys2Proof
end

section
/-!
SUPPORT. The words that do not decode (spec/30_encoding.md R57, R58) and decoding a stream of bytes (R52).
-/
namespace Sys2Proof.Machine

/-! ### The invalid words -/

/-- The function nibbles of family 0x8 that select no instruction (R58). -/
def unusedNibbles8 : List (BitVec 4) := [0x8#4, 0x9#4, 0xA#4, 0xB#4, 0xC#4, 0xD#4, 0xF#4]

/-- The function bytes of family 0xE (R56). -/
def functionBytesE : List Byte := [0x9E#8, 0xA1#8]

/-- The function bytes of family 0xF (R56). -/
def functionBytesF : List Byte := [0x07#8, 0x0A#8, 0x15#8, 0x18#8, 0x1E#8, 0x29#8, 0x33#8, 0x55#8, 0x65#8]

theorem nibble_mem_unusedNibbles8 : ∀ b : BitVec 4, ¬b = 0x0#4 → ¬b = 0x1#4 → ¬b = 0x2#4 → ¬b = 0x3#4 →
    ¬b = 0x4#4 → ¬b = 0x5#4 → ¬b = 0x6#4 → ¬b = 0x7#4 → ¬b = 0xE#4 → b ∈ unusedNibbles8 := by
  decide

/-- The list of R58 in the fields that the decoder looks at. -/
theorem invalidWord_iff (op : Word) :
    InvalidWord op ↔ (fieldH op = 0x0#4 ∧ op ≠ 0x00E0#16 ∧ op ≠ 0x00EE#16) ∨
      (fieldH op = 0x5#4 ∧ fieldF op ≠ 0x0#4) ∨ (fieldH op = 0x9#4 ∧ fieldF op ≠ 0x0#4) ∨
      (fieldH op = 0x8#4 ∧ fieldF op ∈ unusedNibbles8) ∨ (fieldH op = 0xE#4 ∧ fieldKK op ∉ functionBytesE) ∨
      (fieldH op = 0xF#4 ∧ fieldKK op ∉ functionBytesF) := by
  simp [InvalidWord, unusedNibbles8, functionBytesE, functionBytesF, ← fieldH_toNat, ← fieldF_toNat, ← fieldKK_toNat,
    BitVec.toNat_eq]

theorem decode8_eq_error_iff (op : Word) (r : Reject) :
    decode8 op = .error r ↔ fieldF op ∈ unusedNibbles8 ∧ Reject.invalidInstruction op = r := by
  unfold decode8
  split
  case h_10 =>
    have hf : fieldF op ∈ unusedNibbles8 := by apply nibble_mem_unusedNibbles8 <;> assumption
    simp [hf]
  all_goals simp [unusedNibbles8, *]

theorem decodeE_eq_error_iff (op : Word) (r : Reject) :
    decodeE op = .error r ↔ fieldKK op ∉ functionBytesE ∧ Reject.invalidInstruction op = r := by
  unfold decodeE functionBytesE
  split <;> simp_all

theorem decodeF_eq_error_iff (op : Word) (r : Reject) :
    decodeF op = .error r ↔ fieldKK op ∉ functionBytesF ∧ Reject.invalidInstruction op = r := by
  unfold decodeF functionBytesF
  split <;> simp_all

/-- The words that do not decode are those of the list, each rejected with its value. -/
theorem decode_eq_error_iff (op : Word) (r : Reject) :
    decode op = .error r ↔ InvalidWord op ∧ Reject.invalidInstruction op = r := by
  rw [invalidWord_iff]
  unfold decode
  split
  case h_1 hh | h_6 hh | h_10 hh =>
    simp only [hh]
    split_ifs <;> simp [*]
  case h_9 hh => simp [hh, decode8_eq_error_iff]
  case h_15 hh => simp [hh, decodeE_eq_error_iff]
  case h_16 =>
    have hh : fieldH op = 0xF#4 := by apply nibble_eq_fifteen <;> assumption
    simp [hh, decodeF_eq_error_iff]
  -- every word of the other families decodes
  all_goals simp [*]

/-- A running block's OP_CYCLE that halts it returns the fault (R61). -/
theorem cycle_of_fault (rnd : Byte) (s : State) (c : Cause) (info : Word) (hs : s.status = .running)
    (hc : opCycle rnd s = .next ((s.withRnd rnd).setStatus (.halted c info))) :
    ∃ t, opCycle rnd s = .next t ∧ FaultOnly c info (s.withRnd rnd) t ∧ resultOf (.cycle rnd) s = .fault c info :=
  ⟨_, hc, faultOnly_setStatus c info _, (resultOf_cycle s rnd _ hs hc).2 c info rfl⟩

/-- Settles O35: a word that is not listed is not rejected, and a listed one is, so that a cycle of it faults alone. -/
theorem invalidWordsAreThese : Obligations.InvalidWordsAreThese := by
  intro op
  constructor
  · intro hv
    cases hd : decode op with
    | ok i => exact ⟨i, rfl⟩
    | error r => exact absurd ((decode_eq_error_iff op r).1 hd).1 hv
  · intro hv
    have hd := (decode_eq_error_iff op _).2 ⟨hv, rfl⟩
    exact ⟨hd, fun rnd s hs hf => cycle_of_fault rnd s _ op hs (opCycle_decode_error s rnd op _ hs hf hd)⟩

/-! ### A stream of bytes -/

/-- The word of two bytes, the first the high one (R36). -/
theorem opcodeOfBytes_eq_ofNat (hi lo : Byte) : opcodeOfBytes hi lo = BitVec.ofNat 16 (256 * hi.toNat + lo.toNat) := by
  rw [← opcodeOfBytes_toNat, BitVec.ofNat_toNat, BitVec.setWidth_eq]

/-- Decoding a stream gives the instruction of its first two bytes and what follows them (R52). -/
theorem decodeBytes_eq_ok_iff (hi lo : Byte) (rest : List Byte) (i : Instr) (left : List Byte) :
    decodeBytes (hi :: lo :: rest) = .ok (i, left) ↔ left = rest ∧ decode (opcodeOfBytes hi lo) = .ok i := by
  simp only [decodeBytes]
  cases decode (opcodeOfBytes hi lo) with
  | ok j => simp [eq_comm, and_comm]
  | error r => simp

/-- Settles O34: the decoder takes two bytes, and rejects a stream that has fewer. -/
theorem decodingConsumesTwoBytes : Obligations.DecodingConsumesTwoBytes :=
  ⟨fun hi lo rest i left => opcodeOfBytes_eq_ofNat hi lo ▸ decodeBytes_eq_ok_iff hi lo rest i left, rfl, fun _ => rfl⟩

end Sys2Proof.Machine
end

section
/-!
SUPPORT. OP_CYCLE and steps (spec/30_encoding.md R61-R63): the transaction, the instruction that a step runs, the word
placed where a step fetches, and the next pc of every instruction.
-/
namespace Sys2Proof.Machine

/-! ### OP_CYCLE -/

/-- Settles O39: each branch of OP_CYCLE, with the value returned from the status of the next state. -/
theorem cycleIsTheTransaction : Obligations.CycleIsTheTransaction := by
  intro rnd s
  refine ⟨fun c info hs => ⟨opCycle_halted s rnd c info hs, by simp only [resultOf, hs]⟩, fun hs => ⟨?_, ?_, ?_⟩⟩
  · exact fun a hf => cycle_of_fault rnd s _ _ hs (opCycle_fetch_error s rnd a hs hf)
  · exact fun op r hf hd => cycle_of_fault rnd s _ op hs (opCycle_decode_error s rnd op r hs hf hd)
  · intro op i hf hd
    have he := exec_eq_answer i (s.withRnd rnd)
    have hc := (opCycle_exec s rnd op i hs hf hd).trans he
    exact ⟨_, hc, he, resultOf_cycle s rnd _ hs hc⟩

/-! ### The instruction that a step runs -/

/-- A step of a running block that fetches a word runs the instruction the word decodes to. -/
theorem step_eq_exec (s : State) (op : Word) (i : Instr) (hp : s.env.pending = []) (hs : s.status = .running)
    (hf : fetch s = .ok op) (hd : decode op = .ok i) :
    step s = exec i (s.takeDraw.withRnd (Config.rndDraw s.env.draws)) := by
  rw [step_running s hp hs]
  exact opCycle_exec s.takeDraw _ op i hs hf hd

/-- Settles O40: the fetched word is that of the two bytes at pc. -/
theorem stepRunsDecodedInstruction : Obligations.StepRunsDecodedInstruction := by
  intro s i hp hs hpc hd
  obtain ⟨-, hd⟩ := (decodeBytes_eq_ok_iff _ _ _ _ _).1 hd
  exact step_eq_exec s _ i hp hs (fetch_ok s hpc) hd

/-! ### The word placed where a step fetches (log 16) -/

theorem fetchable_le (pc : Word) : (fetchable pc).toNat ≤ 0xFFE := by
  unfold fetchable
  split
  · assumption
  · decide

@[simp] theorem withFetchWord_pc (s : State) (nbits w : Nat) : (s.withFetchWord nbits w).pc = fetchable s.pc := rfl

@[simp] theorem withFetchWord_M (s : State) (nbits w : Nat) :
    (s.withFetchWord nbits w).M = s.M.writeBytes (fetchable s.pc).toNat (bytesOfWord (tableWord nbits w)) := rfl

/-- The fetch sees the two bytes of the placed word. -/
theorem fetch_withFetchWord (s : State) (nbits w : Nat) (hm : s.M.wf = true) :
    fetch (s.withFetchWord nbits w) = .ok (tableWord nbits w) := by
  rw [fetch_ok _ (fetchable_le s.pc)]
  simp [Memory.read_writeBytes _ _ _ _ hm, bytesOfWord_eq]

theorem decode_of_decodeTableWord (nbits w : Nat) (i : Instr) (h : decodeTableWord nbits w = some i) :
    decode (tableWord nbits w) = .ok i := by
  cases hd : decode (tableWord nbits w) <;> simp_all [decodeTableWord, decodeBytes, bytesOfWord_eq]

/-- Settles O41: the placed word is fetched, and the block runs with no operation before it. -/
theorem placedWordIsRun : Obligations.PlacedWordIsRun := fun s nbits w i hm h =>
  step_eq_exec (s.withFetchWord nbits w) _ i rfl rfl (fetch_withFetchWord s nbits w hm)
    (decode_of_decodeTableWord nbits w i h)

/-! ### What every instruction answers -/

/-- Settles O23: the answer is the fault alone or the effect, a next state in both cases. -/
theorem everyInstructionAnswers : Obligations.EveryInstructionAnswers := fun i s => ⟨_, exec_eq_answer i s⟩

/-! ### The next pc (R62) -/

theorem effect_status (i : Instr) (s : State) : (effect i s).status = s.status := by
  cases i <;> simp [effect]

/-- Fall through from a pc that could be fetched does not wrap. -/
theorem toNat_add_two (pc : Word) (h : pc.toNat ≤ 0xFFE) : (pc + 2).toNat = pc.toNat + 2 := by bv_omega

theorem skipIf_pc_toNat (s : State) (c : Bool) (h : s.pc.toNat ≤ 0xFFE) :
    (s.skipIf c).pc.toNat = s.pc.toNat + 2 ∨ (s.skipIf c).pc.toNat = s.pc.toNat + 4 := by
  cases c
  · exact .inl (toNat_add_two s.pc h)
  · right
    simp only [State.skipIf_pc, if_true]
    bv_omega

theorem addrWord_add_byteWord_toNat (nnn : Addr) (b : Byte) :
    (addrWord nnn + byteWord b).toNat = nnn.toNat + b.toNat := by
  simp only [addrWord, byteWord, BitVec.toNat_add, BitVec.toNat_setWidth]; omega

theorem waitPC_released (s : State) (h : ∀ k : Key, s.K[k] = false) : waitPC s = s.pc := by
  simp [waitPC, chooseKey_released s h]

theorem waitPC_pressed (s : State) (h : ∃ k : Key, s.K[k] = true) : waitPC s = s.pc + 2 := by
  obtain ⟨k, hk⟩ := h
  obtain ⟨j, hj, -⟩ := chooseKey_pressed s k hk
  simp [waitPC, hj]

/-- Settles O24: a fault alone keeps pc, and the pc of an effect is that of the instruction's rule. -/
theorem nextPcOfEveryInstruction : Obligations.NextPcOfEveryInstruction := by
  intro i s t hs hpc he
  rcases exec_cases i s t he with ⟨c, info, rfl⟩ | ⟨hf, rfl⟩
  · exact ⟨fun _ => rfl, fun ht => by cases ht⟩
  refine ⟨fun ht => absurd ((effect_status i s).trans hs) ht, fun hrun => ?_⟩
  have hnext := toNat_add_two s.pc hpc
  cases i
  case jp nnn | call nnn => exact addrWord_toNat nnn
  case jpV0 nnn => exact addrWord_add_byteWord_toNat nnn _
  case ret =>
    have h0 : s.SP.val ≠ 0 := fun h => by simp [faultOf, h] at hf
    exact ⟨⟨s.SP.val - 1, by omega⟩, by dsimp only; omega, rfl⟩
  case seByte | sneByte | seReg | sneReg | skp | sknp => exact skipIf_pc_toNat s _ hpc
  case ldVxK x =>
    have hw : (effect (.ldVxK x) s).pc = waitPC s := rfl
    exact ⟨fun h => hw.trans (waitPC_released s h), fun h => by rw [hw, waitPC_pressed s h, hnext]⟩
  all_goals simpa [effect] using hnext

end Sys2Proof.Machine
end

section
/-!
SUPPORT. The display instructions (spec/40_display.md R64, R65): 00E0 clears the screen, Dxyn toggles the pixels that the
sprite's 1 bits meet, and drawing the same sprite again undoes it.
-/
namespace Sys2Proof.Machine

/-! ### 00E0 -/

/-- Settles O13: the effect of CLS, field by field. -/
theorem clearScreen : Obligations.ClearScreen :=
  ⟨by decide, fun s => ⟨effect .cls s, rfl, Framebuffer.pixel_clear, rfl, rfl, rfl, rfl, fun _ _ => rfl, fun _ => rfl⟩⟩

/-! ### Dxyn -/

section
variable (x y : Reg) (n : Fin 16) (s : State)

theorem exec_drw_ok (h : n.val = 0 ∨ s.I.toNat + n.val ≤ 0x1000) :
    exec (.drw x y n) s = .next (effect (.drw x y n) s) := execDrw_ok x y n s h

theorem effect_drw_pixel_of_meets (px : Fin 64) (py : Fin 32) (h : SpriteMeets s x y n.val px py) :
    (effect (.drw x y n) s).FB.pixel px py = !s.FB.pixel px py := by
  refine (drawn_pixel s x y n px py).trans ?_
  rw [decide_eq_true ((mem_spritePixels_iff_meets s x y n px py).2 h), Bool.xor_true]

theorem effect_drw_pixel_of_not_meets (px : Fin 64) (py : Fin 32) (h : ¬SpriteMeets s x y n.val px py) :
    (effect (.drw x y n) s).FB.pixel px py = s.FB.pixel px py := by
  refine (drawn_pixel s x y n px py).trans ?_
  rw [decide_eq_false (mt (mem_spritePixels_iff_meets s x y n px py).1 h), Bool.xor_false]

theorem effect_drw_VF : (effect (.drw x y n) s).V[VF] = flagByte (drawn x y n s).2 :=
  State.setFlag_VF (s.setFB (drawn x y n s).1) _

theorem effect_drw_VF_eq_one (h : ∃ px py, SpriteMeets s x y n.val px py ∧ s.FB.pixel px py = true) :
    (effect (.drw x y n) s).V[VF] = 1 := by
  rw [effect_drw_VF, (drawn_collision s x y n).2 h]
  rfl

theorem effect_drw_VF_eq_zero (h : ¬∃ px py, SpriteMeets s x y n.val px py ∧ s.FB.pixel px py = true) :
    (effect (.drw x y n) s).V[VF] = 0 := by
  rw [effect_drw_VF, Bool.eq_false_iff.2 (mt (drawn_collision s x y n).1 h)]
  rfl

theorem effect_drw_frame : OnlyDisplayAndPc s (effect (.drw x y n) s) :=
  ⟨rfl, sameRegsBut_setV VF _ (s.setFB (drawn x y n s).1), fun _ => rfl⟩

/-- A drawing moves no sprite whose coordinates are not in VF. -/
theorem spriteMeets_effect_drw (hx : x ≠ VF) (hy : y ≠ VF) (px : Fin 64) (py : Fin 32) :
    SpriteMeets (effect (.drw x y n) s) x y n.val px py ↔ SpriteMeets s x y n.val px py := by
  obtain ⟨-, hregs, -⟩ := effect_drw_frame x y n s
  simp only [SpriteMeets, hregs x (by simpa using hx), hregs y (by simpa using hy)]
  rfl

/-- A pixel the sprite meets is toggled twice, every other one never. -/
theorem effect_drw_twice_FB (hx : x ≠ VF) (hy : y ≠ VF) :
    (effect (.drw x y n) (effect (.drw x y n) s)).FB = s.FB := by
  refine Framebuffer.ext _ _ fun px py => ?_
  have hmeets := spriteMeets_effect_drw x y n s hx hy px py
  by_cases h : SpriteMeets s x y n.val px py
  · rw [effect_drw_pixel_of_meets _ _ _ _ _ _ (hmeets.2 h), effect_drw_pixel_of_meets _ _ _ _ _ _ h, Bool.not_not]
  · rw [effect_drw_pixel_of_not_meets _ _ _ _ _ _ (mt hmeets.1 h), effect_drw_pixel_of_not_meets _ _ _ _ _ _ h]

/-- After a drawing without collision a pixel that the sprite meets is set. -/
theorem effect_drw_pixel_of_no_collision (px : Fin 64) (py : Fin 32) (h : SpriteMeets s x y n.val px py)
    (h0 : (effect (.drw x y n) s).V[VF] = 0) : (effect (.drw x y n) s).FB.pixel px py = true := by
  rw [effect_drw_pixel_of_meets x y n s px py h]
  cases hp : s.FB.pixel px py with
  | false => rfl
  | true =>
    rw [effect_drw_VF_eq_one x y n s ⟨px, py, h, hp⟩] at h0
    cases h0

end

/-- Every word of the family 0xD is a DRW. -/
theorem hasPattern_drw : HasPattern 0xF000 0xD000 fun op => .drw (fieldX op) (fieldY op) (fieldN op) :=
  hasPattern_of_h _ _ fun op h => by
    have h : fieldH op = 0xD#4 := h
    simp only [decode, h]

/-- Settles O14: the effect of DRW pixel by pixel, or the fault of its first row above 0xFFF. -/
theorem drawSprite : Obligations.DrawSprite := by
  refine ⟨hasPattern_drw, fun x y n s => ⟨fun h => ?_, fun h0 h => ?_⟩⟩
  · exact ⟨_, exec_drw_ok x y n s h,
      fun px py => ⟨effect_drw_pixel_of_meets x y n s px py, effect_drw_pixel_of_not_meets x y n s px py⟩,
      effect_drw_VF_eq_one x y n s, effect_drw_VF_eq_zero x y n s, rfl, rfl, effect_drw_frame x y n s⟩
  · exact ⟨_, execDrw_range x y n s h0 h, faultOnly_setStatus _ _ s⟩

/-- Settles O15: the second drawing meets the pixels of the first, so it toggles them back and finds them set. -/
theorem drawTwiceErases : Obligations.DrawTwiceErases := by
  intro x y n s hx hy h
  refine ⟨_, _, exec_drw_ok x y n s (.inr h), exec_drw_ok x y n _ (.inr h), effect_drw_twice_FB x y n s hx hy, ?_⟩
  rintro ⟨px, py, hm⟩ h0
  exact effect_drw_VF_eq_one x y n _ ⟨px, py, (spriteMeets_effect_drw x y n s hx hy px py).2 hm,
    effect_drw_pixel_of_no_collision x y n s px py hm h0⟩

end Sys2Proof.Machine
end

section
/-!
SUPPORT. Control transfer (spec/41_control_flow.md R66-R75): the skips, the jumps, and the call stack under CALL and RET.
-/
namespace Sys2Proof.Machine

/-! ### The words of a format

The encoder names the format of an instruction; every word that shows the format's fixed fields decodes to it. -/

theorem hasPattern_addr (p : Word) (build : Addr → Instr) (h : ∀ nnn, encode (build nnn) = wordAddr (fieldH p) nnn) :
    HasPattern 0xF000 p fun op => build (fieldNNN op) :=
  hasPattern_of_h p _ fun op hh => (decodeEncodeInverse op _).2 ((h _).trans (wordAddr_of_fields hh))

theorem hasPattern_xkk (p : Word) (build : Reg → Byte → Instr)
    (h : ∀ x kk, encode (build x kk) = wordXKK (fieldH p) x kk) :
    HasPattern 0xF000 p fun op => build (fieldX op) (fieldKK op) :=
  hasPattern_of_h p _ fun op hh => (decodeEncodeInverse op _).2 ((h _ _).trans (wordXKK_of_fields hh))

theorem hasPattern_xyf (p : Word) (build : Reg → Reg → Instr)
    (h : ∀ x y, encode (build x y) = wordXYF (fieldH p) x y (fieldF p)) :
    HasPattern 0xF00F p fun op => build (fieldX op) (fieldY op) :=
  hasPattern_of_xyf p _ fun op hh hf => (decodeEncodeInverse op _).2 ((h _ _).trans (wordXYF_of_fields hh hf))

/-! ### Skips (R67, R71-R74) -/

theorem onlyPc_setPC (s : State) (target : Word) : OnlyPc s (s.setPC target) := ⟨rfl, fun _ => rfl⟩

section
variable (s : State) (a b : Byte)

/-- A skip on equal operands, by their values. -/
theorem skipIf_beq : OnlyPc s (s.skipIf (a == b)) ∧ (a.toNat = b.toNat → (s.skipIf (a == b)).pc = s.pc + 4) ∧
    (a.toNat ≠ b.toNat → (s.skipIf (a == b)).pc = s.pc + 2) := by
  refine ⟨onlyPc_setPC s _, fun h => ?_, fun h => ?_⟩
  · simp [BitVec.eq_of_toNat_eq h]
  · simp [BitVec.toNat_ne_iff_ne.1 h]

/-- A skip on different operands, by their values. -/
theorem skipIf_bne : OnlyPc s (s.skipIf (a != b)) ∧ (a.toNat ≠ b.toNat → (s.skipIf (a != b)).pc = s.pc + 4) ∧
    (a.toNat = b.toNat → (s.skipIf (a != b)).pc = s.pc + 2) := by
  refine ⟨onlyPc_setPC s _, fun h => ?_, fun h => ?_⟩
  · simp [BitVec.toNat_ne_iff_ne.1 h]
  · simp [BitVec.eq_of_toNat_eq h]

end

theorem invalidWord_of_register_skip (op : Word) (h : op.toNat / 4096 ∈ [0x5, 0x9]) (hn : op.toNat % 16 ≠ 0) :
    InvalidWord op := by
  simp only [List.mem_cons, List.not_mem_nil, or_false] at h
  rcases h with h | h
  · exact .inr (.inl ⟨h, hn⟩)
  · exact .inr (.inr (.inl ⟨h, hn⟩))

/-- Settles O8: the words are those of the encoder's formats, and each effect is a skip on a comparison. -/
theorem skipsOnRegisters : Obligations.SkipsOnRegisters := by
  refine ⟨?_, ?_, ?_, ?_, ?_, fun x y kk s => ⟨?_, ?_, ?_, ?_⟩⟩
  · exact hasPattern_xkk _ .seByte fun _ _ => rfl
  · exact hasPattern_xkk _ .sneByte fun _ _ => rfl
  · exact hasPattern_xyf _ .seReg fun _ _ => rfl
  · exact hasPattern_xyf _ .sneReg fun _ _ => rfl
  · exact fun op h hn => (decode_eq_error_iff op _).2 ⟨invalidWord_of_register_skip op h hn, rfl⟩
  · exact ⟨_, rfl, skipIf_beq s _ kk⟩
  · exact ⟨_, rfl, skipIf_bne s _ kk⟩
  · exact ⟨_, rfl, skipIf_beq s _ _⟩
  · exact ⟨_, rfl, skipIf_bne s _ _⟩

/-! ### Memory and the skips (R67) -/

/-- The instructions whose effect reads or writes memory (R39). -/
def UsesMemory : Instr → Prop
  | .drw _ _ _ | .ldB _ | .storeRegs _ | .loadRegs _ => True
  | _ => False

theorem faultOf_setM (i : Instr) (s : State) (m : Memory) : faultOf i (s.setM m) = faultOf i s := by
  cases i <;> rfl

theorem effect_setM (i : Instr) (s : State) (m : Memory) (h : ¬UsesMemory i) :
    effect i (s.setM m) = (effect i s).setM m := by
  cases i
  case drw | ldB | storeRegs | loadRegs => exact absurd trivial h
  all_goals rfl

/-- An instruction that does not use memory does the same whatever memory holds. -/
theorem exec_setM (i : Instr) (s : State) (m : Memory) (h : ¬UsesMemory i) :
    exec i (s.setM m) = mapNext (State.setM m) (exec i s) := by
  obtain ⟨t, t', e, e', ht⟩ := exec_related (fun t t' => t' = t.setM m) i s (s.setM m)
    (faultOf_setM i s m) (fun _ => rfl) fun _ => effect_setM i s m h
  rw [e, e', ht, mapNext]

/-- The six skips use no memory, and the effect of each is a skip. -/
theorem effect_eq_skipIf (x y : Reg) (kk : Byte) (s : State) :
    ∀ i ∈ [Instr.seByte x kk, .sneByte x kk, .seReg x y, .sneReg x y, .skp x, .sknp x],
      ¬UsesMemory i ∧ ∃ c, effect i s = s.skipIf c := by
  intro i hi
  simp only [List.mem_cons, List.not_mem_nil, or_false] at hi
  rcases hi with rfl | rfl | rfl | rfl | rfl | rfl <;> exact ⟨id, _, rfl⟩

theorem skipIf_pc_cases (s : State) (c : Bool) : (s.skipIf c).pc = s.pc + 2 ∨ (s.skipIf c).pc = s.pc + 4 := by
  cases c
  · exact .inl rfl
  · exact .inr rfl

/-- Settles O25: a skip uses no memory, and it answers a fault, which halts the block, or its effect. -/
theorem skippedWordIsNotDecoded : Obligations.SkippedWordIsNotDecoded := by
  intro x y kk s m i hi
  obtain ⟨hmem, c, hc⟩ := effect_eq_skipIf x y kk s i hi
  obtain ⟨t, ht⟩ := everyInstructionAnswers i s
  refine ⟨exec_setM i s m hmem, t, ht, fun _ hrun => ?_⟩
  rcases exec_cases i s t ht with ⟨cause, info, rfl⟩ | ⟨-, rfl⟩
  · cases hrun
  · rw [hc]; exact skipIf_pc_cases s c

/-! ### Jumps (R69, R75) -/

/-- A jump to the pc itself changes nothing. -/
theorem setPC_addrWord_self (s : State) (nnn : Addr) (h : s.pc.toNat = nnn.toNat) : s.setPC (addrWord nnn) = s := by
  have hpc : addrWord nnn = s.pc := BitVec.eq_of_toNat_eq ((addrWord_toNat nnn).trans h.symm)
  rw [hpc]; rfl

/-- Settles O9: both targets are sums that do not wrap, and only pc is written. -/
theorem jumps : Obligations.Jumps := by
  refine ⟨?_, ?_, fun nnn s => ⟨?_, ?_⟩⟩
  · exact hasPattern_addr _ .jp fun _ => rfl
  · exact hasPattern_addr _ .jpV0 fun _ => rfl
  · exact ⟨_, rfl, addrWord_toNat nnn, onlyPc_setPC s _, setPC_addrWord_self s nnn⟩
  · exact ⟨_, rfl, addrWord_add_byteWord_toNat nnn _, addrWord_add_byteWord_le nnn _, onlyPc_setPC s _⟩

/-! ### Calls and returns (R68, R70) -/

theorem onlyStackAndPc_setStack_setPC (s : State) (depth : Fin 17) (entries : Vector Word 16) (target : Word) :
    OnlyStackAndPc s ((s.setStack depth entries).setPC target) := ⟨rfl, fun _ => rfl⟩

/-- Settles O10: the pushed entry is the first one not in use; a full stack is the fault alone. -/
theorem callPushesAndJumps : Obligations.CallPushesAndJumps := by
  refine ⟨?_, fun nnn s => ⟨fun h => ?_, fun h => ?_⟩⟩
  · exact hasPattern_addr _ .call fun _ => rfl
  · exact ⟨_, execCall_ok nnn s h, rfl, Vector.getElem_set_self h,
      fun j hj => Vector.getElem_set_ne h j.isLt hj.symm, addrWord_toNat nnn, onlyStackAndPc_setStack_setPC s _ _ _⟩
  · exact ⟨_, execCall_full nnn s h, faultOnly_setStatus _ _ s⟩

/-- Settles O11: the popped entry is the last one in use; an empty stack is the fault alone. -/
theorem returnPops : Obligations.ReturnPops := by
  refine ⟨(decodeEncodeInverse _ _).2 rfl, fun s => ⟨fun h => ?_, fun h => ?_⟩⟩
  · exact ⟨_, execRet_ok s h, rfl, rfl, rfl, onlyStackAndPc_setStack_setPC s _ _ _⟩
  · exact ⟨_, execRet_empty s h, faultOnly_setStatus _ _ s⟩

/-- Settles O12: the entry the RET pops is the one the CALL pushed, and the entries below it are kept by both. -/
theorem callThenReturnComesBack : Obligations.CallThenReturnComesBack := by
  intro nnn s retAt h
  obtain ⟨-, call⟩ := callPushesAndJumps
  obtain ⟨t, hcall, hdepth, htop, hkept, -⟩ := (call nnn s).1 h
  obtain ⟨-, ret⟩ := returnPops
  have hpos : 0 < (t.setPC retAt).SP.val := by simp only [State.setPC_SP]; omega
  obtain ⟨u, hret, hpc, hback, hentries, -⟩ := (ret (t.setPC retAt)).1 hpos
  simp only [State.setPC_SP, State.setPC_S, hdepth, Nat.add_sub_cancel] at hpc hback hentries
  refine ⟨t, u, hcall, hret, hpc.trans htop, Fin.ext hback, fun j hj => ?_⟩
  rw [hentries]
  exact hkept j (Nat.ne_of_lt hj)

end Sys2Proof.Machine
end

section
/-!
SUPPORT. Register arithmetic and logic (spec/42_arithmetic.md R76-R89): 6xkk, 7xkk, 8xy0-8xyE, Cxkk. An instruction writes
one register, or a result and then the flag.
-/
namespace Sys2Proof.Machine

/-! ### One register written -/

section
variable (x : Reg) (b : Byte) (s : State)

theorem State.setV_self : (s.setV x b).V[x] = b := by
  rw [State.setV_getElem, if_pos rfl]

theorem setV_advance_frame : (s.setV x b).advance.pc = s.pc + 2 ∧ SameRegsBut [x] s (s.setV x b).advance ∧
    OnlyRegsAndPc s (s.setV x b).advance :=
  ⟨rfl, sameRegsBut_setV x b s, onlyRegsAndPc_setRegs _ s⟩

end

/-- Settles O1: the literal, or the sum modulo 256, is the one register written. -/
theorem literalLoadAndAdd : Obligations.LiteralLoadAndAdd := by
  refine ⟨?_, ?_, fun x kk s => ⟨?_, ?_⟩⟩
  · exact hasPattern_xkk _ .ldByte fun _ _ => rfl
  · exact hasPattern_xkk _ .addByte fun _ _ => rfl
  · exact ⟨_, rfl, s.setV_self x kk, setV_advance_frame x kk s⟩
  · have hsum : (s.setV x (s.reg x + kk)).V[x].toNat = (s.V[x].toNat + kk.toNat) % 256 := by
      rw [State.setV_self]; exact BitVec.toNat_add _ _
    exact ⟨_, rfl, hsum, setV_advance_frame x _ s⟩

/-- Settles O2: the one register written is the copy, or has at each bit the operation on the operands' bits. -/
theorem copyAndBitwise : Obligations.CopyAndBitwise := by
  refine ⟨?_, ?_, ?_, ?_, fun x y s => ⟨?_, ?_, ?_, ?_⟩⟩
  · exact hasPattern_xyf _ .ldReg fun _ _ => rfl
  · exact hasPattern_xyf _ .orReg fun _ _ => rfl
  · exact hasPattern_xyf _ .andReg fun _ _ => rfl
  · exact hasPattern_xyf _ .xorReg fun _ _ => rfl
  · exact ⟨_, rfl, s.setV_self x _, setV_advance_frame x _ s⟩
  · have hor (b : Nat) : (s.setV x (s.reg x ||| s.reg y)).V[x].getLsbD b = (s.V[x].getLsbD b || s.V[y].getLsbD b) := by
      rw [State.setV_self]; exact BitVec.getLsbD_or
    exact ⟨_, rfl, hor, setV_advance_frame x _ s⟩
  · have hand (b : Nat) : (s.setV x (s.reg x &&& s.reg y)).V[x].getLsbD b = (s.V[x].getLsbD b && s.V[y].getLsbD b) := by
      rw [State.setV_self]; exact BitVec.getLsbD_and
    exact ⟨_, rfl, hand, setV_advance_frame x _ s⟩
  · have hxor (b : Nat) : (s.setV x (s.reg x ^^^ s.reg y)).V[x].getLsbD b = (s.V[x].getLsbD b ^^ s.V[y].getLsbD b) := by
      rw [State.setV_self]; exact BitVec.getLsbD_xor
    exact ⟨_, rfl, hxor, setV_advance_frame x _ s⟩

/-- Settles O7: the draw is the one that `withRnd` placed, and its masking is the one register written. -/
theorem randomByteMasked : Obligations.RandomByteMasked := by
  refine ⟨hasPattern_xkk _ .rnd fun _ _ => rfl, fun x kk rnd s => ?_⟩
  have hand (b : Nat) : ((s.withRnd rnd).setV x (rnd &&& kk)).V[x].getLsbD b = (rnd.getLsbD b && kk.getLsbD b) := by
    rw [State.setV_self]; exact BitVec.getLsbD_and
  exact ⟨_, rfl, hand, setV_advance_frame x _ (s.withRnd rnd)⟩

/-! ### A result, then the flag (R77) -/

section
variable (x : Reg) (b : Byte) (f : Bool) (s : State)

theorem State.setResultFlag_dest (h : x ≠ VF) : (s.setResultFlag x b f).V[x] = b := by
  rw [State.setResultFlag_getElem, if_neg h, if_pos rfl]

theorem setResultFlag_advance_frame : (s.setResultFlag x b f).advance.pc = s.pc + 2 ∧
    SameRegsBut [x, VF] s (s.setResultFlag x b f).advance ∧ OnlyRegsAndPc s (s.setResultFlag x b f).advance :=
  ⟨rfl, sameRegsBut_setResultFlag x b f s, onlyRegsAndPc_setRegs _ s⟩

theorem State.setResultFlag_dest_toNat (r : Nat) (hr : b.toNat = r) (h : x ≠ VF) :
    (s.setResultFlag x b f).V[x].toNat = r := by
  rw [s.setResultFlag_dest x b f h, hr]

theorem State.setResultFlag_VF_toNat (n : Nat) (hn : (flagByte f).toNat = n) :
    (s.setResultFlag x b f).V[VF].toNat = n := by
  rw [State.setResultFlag_VF, hn]

end

/-! ### The results and the flags as numbers (R10, R76) -/

section
variable (a b : Byte)

theorem sub_toNat : (a - b).toNat = (a.toNat + 256 - b.toNat) % 256 := by bv_omega

theorem shiftRight_one_toNat : (a >>> 1).toNat = a.toNat / 2 := by
  rw [BitVec.toNat_ushiftRight, Nat.shiftRight_one]

theorem shiftLeft_one_toNat : (a <<< 1).toNat = 2 * a.toNat % 256 := by
  rw [BitVec.toNat_shiftLeft, Nat.shiftLeft_eq, Nat.mul_comm]

theorem flagByte_carry : flagByte (carry a b) = if a.toNat + b.toNat > 255 then 1 else 0 := by
  simp only [flagByte, carry, decide_eq_true_eq]

theorem flagByte_notBorrow : flagByte (notBorrow a b) = if a.toNat ≥ b.toNat then 1 else 0 := by
  simp only [flagByte, notBorrow, decide_eq_true_eq]

/-- A flag that is a bit of a byte is that binary digit of its value. -/
theorem flagByte_getLsbD_toNat (k : Nat) : (flagByte (a.getLsbD k)).toNat = a.toNat / 2 ^ k % 2 := by
  have hflag (f : Bool) : (flagByte f).toNat = f.toNat := by cases f <;> rfl
  exact (hflag _).trans (Nat.toNat_testBit _ _)

theorem flagByte_shiftedOutRight_toNat : (flagByte (shiftedOutRight a)).toNat = a.toNat % 2 := by
  rw [shiftedOutRight, flagByte_getLsbD_toNat, pow_zero, Nat.div_one]

theorem flagByte_shiftedOutLeft_toNat : (flagByte (shiftedOutLeft a)).toNat = a.toNat / 128 := by
  have hlt := a.isLt
  rw [shiftedOutLeft, flagByte_getLsbD_toNat]
  omega

end

/-- Settles O3: the sum, then the carry, in a state that keeps everything else. -/
theorem addWithCarry : Obligations.AddWithCarry := by
  refine ⟨hasPattern_xyf _ .addReg fun _ _ => rfl, fun x y s => ?_⟩
  exact ⟨_, rfl, s.setResultFlag_dest_toNat x _ _ _ (BitVec.toNat_add _ _),
    (s.setResultFlag_VF x _ _).trans (flagByte_carry _ _), setResultFlag_advance_frame x _ _ s⟩

/-- Settles O4: SUB and SUBN are one difference and one not-borrow, with the operands exchanged. -/
theorem subtractBothWays : Obligations.SubtractBothWays := by
  refine ⟨?_, ?_, fun x y s => ⟨?_, ?_⟩⟩
  · exact hasPattern_xyf _ .subReg fun _ _ => rfl
  · exact hasPattern_xyf _ .subnReg fun _ _ => rfl
  · exact ⟨_, rfl, s.setResultFlag_dest_toNat x _ _ _ (sub_toNat _ _),
      (s.setResultFlag_VF x _ _).trans (flagByte_notBorrow _ _), setResultFlag_advance_frame x _ _ s⟩
  · exact ⟨_, rfl, s.setResultFlag_dest_toNat x _ _ _ (sub_toNat _ _),
      (s.setResultFlag_VF x _ _).trans (flagByte_notBorrow _ _), setResultFlag_advance_frame x _ _ s⟩

/-- Settles O5: the result and the flag are functions of V[x] alone; `y` only selects the word. -/
theorem shiftsByOne : Obligations.ShiftsByOne := by
  refine ⟨?_, ?_, fun x y s => ⟨?_, ?_⟩⟩
  · exact hasPattern_xyf _ .shr fun _ _ => rfl
  · exact hasPattern_xyf _ .shl fun _ _ => rfl
  · exact ⟨_, rfl, s.setResultFlag_dest_toNat x _ _ _ (shiftRight_one_toNat _),
      s.setResultFlag_VF_toNat x _ _ _ (flagByte_shiftedOutRight_toNat _), setResultFlag_advance_frame x _ _ s⟩
  · exact ⟨_, rfl, s.setResultFlag_dest_toNat x _ _ _ (shiftLeft_one_toNat _),
      s.setResultFlag_VF_toNat x _ _ _ (flagByte_shiftedOutLeft_toNat _), setResultFlag_advance_frame x _ _ s⟩

/-- Settles O6: the rules of the five flag writers hold with VF as the first or as the second operand. -/
theorem flagWinsOverResult : Obligations.FlagWinsOverResult := by
  obtain ⟨-, add⟩ := addWithCarry
  obtain ⟨-, -, subtract⟩ := subtractBothWays
  obtain ⟨-, -, shift⟩ := shiftsByOne
  intro x y s
  obtain ⟨tadd, hadd, -, cadd, -⟩ := add VF y s
  obtain ⟨⟨tsub, hsub, -, csub, -⟩, tsubn, hsubn, -, csubn, -⟩ := subtract VF y s
  obtain ⟨⟨tshr, hshr, -, cshr, -⟩, tshl, hshl, -, cshl, -⟩ := shift VF y s
  refine ⟨⟨tadd, hadd, cadd⟩, ⟨tsub, hsub, csub⟩, ⟨tsubn, hsubn, csubn⟩, ⟨tshr, hshr, cshr⟩, ⟨tshl, hshl, cshl⟩,
    fun hx => ?_⟩
  obtain ⟨uadd, kadd, radd, -⟩ := add x VF s
  obtain ⟨⟨usub, ksub, rsub, -⟩, usubn, ksubn, rsubn, -⟩ := subtract x VF s
  exact ⟨⟨uadd, kadd, radd hx⟩, ⟨usub, ksub, rsub hx⟩, ⟨usubn, ksubn, rsubn hx⟩⟩

end Sys2Proof.Machine
end

section
/-!
SUPPORT. The index register and the memory transfers (spec/43_index_memory.md R90-R95): Annn, Fx1E and Fx29 write I;
Fx33 and Fx55 store a block of bytes at I; Fx65 loads a block of registers from I.
-/
namespace Sys2Proof.Machine

theorem hasPattern_xff (p : Word) (build : Reg → Instr)
    (h : ∀ x, encode (build x) = wordXKK (fieldH p) x (fieldKK p)) :
    HasPattern 0xF0FF p fun op => build (fieldX op) :=
  hasPattern_of_xff p _ fun op hh hk => (decodeEncodeInverse op _).2 ((h _).trans (wordXFF_of_fields hh hk))

/-! ### Writing I (R90-R92) -/

theorem setI_advance_frame (w : Word) (s : State) :
    (s.setI w).advance.pc = s.pc + 2 ∧ OnlyIndexAndPc s (s.setI w).advance :=
  ⟨rfl, rfl, fun _ => rfl⟩

theorem add_byteWord_toNat (w : Word) (b : Byte) : (w + byteWord b).toNat = (w.toNat + b.toNat) % 65536 := by
  rw [BitVec.toNat_add, byteWord, BitVec.toNat_setWidth_of_le (by decide)]

/-- The highest glyph address, 0x1B0 + 5 * 255, is far below 65536: the formula does not wrap. -/
theorem glyphAddr_toNat (digit : Byte) : (glyphAddr digit).toNat = Config.glyphBase.val + 5 * digit.toNat := by
  rw [glyphAddr, BitVec.toNat_ofNat, Nat.mod_eq_of_lt (by omega)]

/-- Settles O16: I is the one register written, and only the sum of Fx1E can wrap. -/
theorem indexRegister : Obligations.IndexRegister := by
  refine ⟨?_, ?_, ?_, fun x nnn s => ⟨?_, ?_, ?_⟩⟩
  · exact hasPattern_addr _ .ldI fun _ => rfl
  · exact hasPattern_xff _ .addI fun _ => rfl
  · exact hasPattern_xff _ .ldF fun _ => rfl
  · exact ⟨_, rfl, addrWord_toNat nnn, setI_advance_frame _ s⟩
  · exact ⟨_, rfl, add_byteWord_toNat s.I s.V[x], setI_advance_frame _ s⟩
  · exact ⟨_, rfl, glyphAddr_toNat s.V[x], setI_advance_frame _ s⟩

/-! ### Storing a block of bytes at I (R45, R93, R94) -/

theorem Memory.read_writeBytes_getElem (m : Memory) (a k : Nat) (bs : List Byte) (hm : m.wf = true)
    (hk : k < bs.length) : (m.writeBytes a bs).read (a + k) = bs[k] := by
  rw [Memory.read_writeBytes m a _ bs hm, dif_pos (by omega)]
  simp only [Nat.add_sub_cancel_left]

section
variable (bs : List Byte) (s : State)

theorem setM_writeBytes_advance_frame (hm : s.M.wf = true) :
    SameBytesOutside s.I.toNat bs.length s (s.setM (s.M.writeBytes s.I.toNat bs)).advance ∧
    (s.setM (s.M.writeBytes s.I.toNat bs)).advance.pc = s.pc + 2 ∧
    OnlyMemoryAndPc s (s.setM (s.M.writeBytes s.I.toNat bs)).advance := by
  refine ⟨fun a ha => ?_, rfl, rfl⟩
  exact (Memory.read_writeBytes s.M _ a bs hm).trans (dif_neg (by omega))

/-- A block of at most 16 bytes that begins below 0x200 ends far below 0x1000, so the two faults exclude each other. -/
theorem storeAtI_faults (h0 : bs.length ≠ 0) (h16 : bs.length ≤ 16) :
    (s.I.toNat < 0x200 → ∃ t, storeAtI bs s = .next t ∧ FaultOnly .reservedWrite s.I s t) ∧
    (0x1000 < s.I.toNat + bs.length → ∃ t, storeAtI bs s = .next t ∧
      FaultOnly .addressRange (BitVec.ofNat 16 (max s.I.toNat 0x1000)) s t) := by
  refine ⟨fun h => ?_, fun h => ?_⟩
  · exact ⟨_, storeAtI_reserved bs s h0 h, faultOnly_setStatus _ _ s⟩
  · exact ⟨_, storeAtI_range bs s h0 (by omega) h, faultOnly_setStatus _ _ s⟩

end

/-- Three stored digits read back as their values at the three addresses. -/
theorem read_writeBytes_bcdDigits (m : Memory) (a : Nat) (v : Byte) (hm : m.wf = true) :
    ((m.writeBytes a (bcdDigits v)).read a).toNat = v.toNat / 100 ∧
    ((m.writeBytes a (bcdDigits v)).read (a + 1)).toNat = v.toNat / 10 % 10 ∧
    ((m.writeBytes a (bcdDigits v)).read (a + 2)).toNat = v.toNat % 10 := by
  have digit (k n : Nat) (hk : k < (bcdDigits v).length) (hdigit : (bcdDigits v)[k] = BitVec.ofNat 8 n) (hn : n < 256) :
      ((m.writeBytes a (bcdDigits v)).read (a + k)).toNat = n := by
    rw [m.read_writeBytes_getElem a k _ hm hk, hdigit, BitVec.toNat_ofNat, Nat.mod_eq_of_lt hn]
  exact ⟨digit 0 _ (by simp) rfl (by omega), digit 1 _ (by simp) rfl (by omega), digit 2 _ (by simp) rfl (by omega)⟩

/-- Settles O17: Fx33 is a store of three bytes at I, the decimal digits. -/
theorem storeBcdDigits : Obligations.StoreBcdDigits := by
  refine ⟨hasPattern_xff _ .ldB fun _ => rfl, fun x s hm => ⟨fun h h' => ?_, ?_⟩⟩
  · obtain ⟨hundreds, tens, ones⟩ := read_writeBytes_bcdDigits s.M s.I.toNat s.V[x] hm
    exact ⟨_, storeAtI_ok _ s h h', hundreds, tens, ones, setM_writeBytes_advance_frame (bcdDigits s.V[x]) s hm⟩
  · exact storeAtI_faults (bcdDigits s.V[x]) s (by simp) (by simp)

/-- Settles O18: Fx55 is a store of the x + 1 registers at I. -/
theorem storeRegisterBlock : Obligations.StoreRegisterBlock := by
  refine ⟨hasPattern_xff _ .storeRegs fun _ => rfl, fun x s hm => ?_⟩
  have hlen := s.regBlock_length x
  obtain ⟨reserved, range⟩ := storeAtI_faults (s.regBlock x) s (by omega) (by omega)
  refine ⟨fun h h' => ?_, reserved, fun h => range (by omega)⟩
  have frame := setM_writeBytes_advance_frame (s.regBlock x) s hm
  rw [hlen] at frame
  exact ⟨_, storeAtI_ok _ s h (by omega), fun j hj => s.read_writeBytes_regBlock x j hm hj, frame⟩

/-! ### Loading a block of registers from I (R95) -/

/-- Settles O19: Fx65 replaces the first x + 1 registers by the bytes at I. -/
theorem loadRegisterBlock : Obligations.LoadRegisterBlock := by
  refine ⟨hasPattern_xff _ .loadRegs fun _ => rfl, fun x s => ⟨fun h => ?_, fun h => ?_⟩⟩
  · exact ⟨_, execLoadRegs_ok x s h, fun j hj => (s.loadedRegs_getElem x j).trans (if_pos hj),
      fun j hj => (s.loadedRegs_getElem x j).trans (if_neg (not_le.2 hj)), rfl, onlyRegsAndPc_setRegs _ s⟩
  · exact ⟨_, execLoadRegs_range x s h, faultOnly_setStatus _ _ s⟩

end Sys2Proof.Machine
end

section
/-!
SUPPORT. The keypad and the timers (spec/44_keypad_timers.md R96-R101): Ex9E and ExA1 skip on the key that V[x] names;
Fx07, Fx15 and Fx18 move a byte between V[x] and a timer; Fx0A waits for a key.
-/
namespace Sys2Proof.Machine

/-! ### Skips on a key (R96, R97) -/

/-- A skip on the state of a key, by whether it is the wanted one. -/
theorem skipIf_key (s : State) (pressed want : Bool) : OnlyPc s (s.skipIf (pressed == want)) ∧
    (pressed = want → (s.skipIf (pressed == want)).pc = s.pc + 4) ∧
    (pressed = !want → (s.skipIf (pressed == want)).pc = s.pc + 2) := by
  refine ⟨onlyPc_setPC s _, fun h => ?_, fun h => ?_⟩
  · simp [h]
  · simp [h]

theorem skipOnKey_faultOnly (want : Bool) (x : Reg) (s : State) (h : 15 < s.V[x].toNat) :
    ∃ t, skipOnKey want x s = .next t ∧ FaultOnly .keyRange (BitVec.ofNat 16 s.V[x].toNat) s t := by
  rw [BitVec.ofNat_toNat]
  exact ⟨_, skipOnKey_range want x s h, faultOnly_setStatus _ _ s⟩

/-- Settles O20: SKP and SKNP are one skip on the key that V[x] names, pressed or released, or its KEY_RANGE fault. -/
theorem skipsOnKeys : Obligations.SkipsOnKeys := by
  refine ⟨?_, ?_, fun x s => ⟨fun h => ⟨?_, ?_⟩, fun h => ⟨?_, ?_⟩⟩⟩
  · exact hasPattern_xff _ .skp fun _ => rfl
  · exact hasPattern_xff _ .sknp fun _ => rfl
  · exact ⟨_, skipOnKey_ok true x s (by omega), skipIf_key s _ true⟩
  · exact ⟨_, skipOnKey_ok false x s (by omega), skipIf_key s _ false⟩
  · exact skipOnKey_faultOnly true x s h
  · exact skipOnKey_faultOnly false x s h

/-! ### The timers (R98, R100, R101) -/

theorem State.soundOn_iff (s : State) : s.soundOn = true ↔ s.ST.toNat ≠ 0 := by
  rw [State.soundOn, decide_eq_true_iff]
  exact BitVec.toNat_ne_iff_ne.symm

/-- Settles O21: V[x] is the one register written, or one timer is, and `sound_on` is the sound timer's being non-zero. -/
theorem timerTransfers : Obligations.TimerTransfers := by
  refine ⟨?_, ?_, ?_, fun x s => ⟨?_, ?_, ?_⟩⟩
  · exact hasPattern_xff _ .ldVxDT fun _ => rfl
  · exact hasPattern_xff _ .ldDTVx fun _ => rfl
  · exact hasPattern_xff _ .ldSTVx fun _ => rfl
  · exact ⟨_, rfl, s.setV_self x s.DT, setV_advance_frame x _ s⟩
  · exact ⟨_, rfl, rfl, fun _ => rfl⟩
  · exact ⟨_, rfl, rfl, fun _ => rfl, State.soundOn_iff _⟩

/-! ### Waiting for a key (R99) -/

theorem keyByte_toNat (k : Key) : (keyByte k).toNat = k.val := by
  rw [keyByte, BitVec.toNat_ofNat, Nat.mod_eq_of_lt (by omega)]

/-- `KEY_CHOICE` (R8) as a function of the keypad; key 0 where no key is pressed, of which R99 says nothing. -/
def keyChoice (K : Vector Bool 16) : Key := (chooseKey ((List.finRange 16).filter fun k => K[k])).getD 0

theorem chooseKey_eq_keyChoice (s : State) (h : ∃ k : Key, s.K[k] = true) :
    chooseKey s.pressedKeys = some (keyChoice s.K) ∧ s.K[keyChoice s.K] = true := by
  obtain ⟨k, hk⟩ := h
  obtain ⟨j, hj, hpressed⟩ := chooseKey_pressed s k hk
  obtain rfl : keyChoice s.K = j := congrArg (Option.getD · 0) hj
  exact ⟨hj, hpressed⟩

theorem execLdVxK_released (x : Reg) (s : State) (h : ∀ k : Key, s.K[k] = false) : execLdVxK x s = .next s := by
  rw [execLdVxK, chooseKey_released s h]

theorem execLdVxK_pressed (x : Reg) (s : State) (h : ∃ k : Key, s.K[k] = true) :
    execLdVxK x s = .next (s.setV x (keyByte (keyChoice s.K))).advance := by
  rw [execLdVxK, (chooseKey_eq_keyChoice s h).1]

/-- Settles O22: the keypad alone decides between no change and a write of the chosen key to V[x]. -/
theorem waitForKey : Obligations.WaitForKey := by
  refine ⟨?_, keyChoice, fun K h => ?_, fun x s => ⟨fun h => ?_, fun h => ?_⟩⟩
  · exact hasPattern_xff _ .ldVxK fun _ => rfl
  · exact (chooseKey_eq_keyChoice { State.reset with K := K } h).2
  · exact execLdVxK_released x s h
  · have hkey : (s.setV x (keyByte (keyChoice s.K))).V[x].toNat = (keyChoice s.K).val := by
      rw [State.setV_self, keyByte_toNat]
    exact ⟨_, execLdVxK_pressed x s h, hkey, setV_advance_frame x _ s⟩

end Sys2Proof.Machine
end

section
/-!
SUPPORT. Faults (spec/60_exceptions.md R102-R106): the fault of an OP_CYCLE as a function of the state, cause by cause,
and how long a halt lasts.
-/
namespace Sys2Proof.Machine

/-! ### The fault of an OP_CYCLE -/

/-- The fault that an OP_CYCLE of a running block raises: of the fetch, else of the decoding, else of the instruction
(R105). -/
def cycleFault (s : State) : Option (Cause × Word) :=
  match fetch s with
  | .error a => some (.addressRange, BitVec.ofNat 16 a)
  | .ok op =>
    match decode op with
    | .error _ => some (.invalidInstruction, op)
    | .ok i => faultOf i s

section
variable (s : State) (c : Cause) (info : Word)

theorem cycleFault_of_fetch_error (a : Nat) (hf : fetch s = .error a) :
    cycleFault s = some (.addressRange, BitVec.ofNat 16 a) := by
  simp only [cycleFault, hf]

theorem cycleFault_of_decode_error (op : Word) (r : Reject) (hf : fetch s = .ok op) (hd : decode op = .error r) :
    cycleFault s = some (.invalidInstruction, op) := by
  simp only [cycleFault, hf, hd]

theorem cycleFault_of_decode (op : Word) (i : Instr) (hf : fetch s = .ok op) (hd : decode op = .ok i) :
    cycleFault s = faultOf i s := by
  simp only [cycleFault, hf, hd]

/-- A running block's OP_CYCLE answers its fault alone, or a state that still runs. -/
theorem opCycle_eq_answer (rnd : Byte) (hs : s.status = .running) :
    ∃ u, u.status = .running ∧ opCycle rnd s = .next (answer (cycleFault s) (s.withRnd rnd) u) := by
  cases hf : fetch s with
  | error a =>
    rw [cycleFault_of_fetch_error s a hf]
    exact ⟨s, hs, opCycle_fetch_error s rnd a hs hf⟩
  | ok op =>
    cases hd : decode op with
    | error r =>
      rw [cycleFault_of_decode_error s op r hf hd]
      exact ⟨s, hs, opCycle_decode_error s rnd op r hs hf hd⟩
    | ok i =>
      rw [cycleFault_of_decode s op i hf hd, opCycle_exec s rnd op i hs hf hd, ← faultOf_withRnd i s rnd]
      exact ⟨effect i (s.withRnd rnd), (effect_status i _).trans hs, exec_eq_answer i _⟩

theorem opCycle_of_cycleFault_none (rnd : Byte) (hs : s.status = .running) (h : cycleFault s = none) :
    ∃ t, opCycle rnd s = .next t ∧ t.status = .running ∧ resultOf (.cycle rnd) s = .ok := by
  obtain ⟨u, hu, hc⟩ := opCycle_eq_answer s rnd hs
  rw [h] at hc
  exact ⟨u, hc, hu, (resultOf_cycle s rnd u hs hc).1 hu⟩

theorem opCycle_of_cycleFault_some (rnd : Byte) (hs : s.status = .running) (h : cycleFault s = some (c, info)) :
    ∃ t, opCycle rnd s = .next t ∧ FaultOnly c info (s.withRnd rnd) t ∧ resultOf (.cycle rnd) s = .fault c info := by
  obtain ⟨u, -, hc⟩ := opCycle_eq_answer s rnd hs
  rw [h] at hc
  exact cycle_of_fault rnd s c info hs hc

/-- What a running block's OP_CYCLE returns is FAULT exactly for its fault. -/
theorem resultOf_cycle_eq_fault_iff (rnd : Byte) (hs : s.status = .running) :
    resultOf (.cycle rnd) s = .fault c info ↔ cycleFault s = some (c, info) := by
  cases h : cycleFault s with
  | none =>
    obtain ⟨-, -, -, hok⟩ := opCycle_of_cycleFault_none s rnd hs h
    simp [hok]
  | some f =>
    obtain ⟨-, -, -, hfault⟩ := opCycle_of_cycleFault_some s f.1 f.2 rnd hs h
    simp [hfault, Prod.ext_iff]

end

/-- Settles O42: an OP_CYCLE without a fault leaves the block running, one with a fault is that fault alone. -/
theorem faultsArePrecise : Obligations.FaultsArePrecise := by
  intro rnd s hs
  cases h : cycleFault s with
  | none =>
    obtain ⟨t, hc, hrun, hok⟩ := opCycle_of_cycleFault_none s rnd hs h
    exact ⟨t, hc, .inl ⟨hrun, hok⟩⟩
  | some f =>
    obtain ⟨t, hc, hfault⟩ := opCycle_of_cycleFault_some s f.1 f.2 rnd hs h
    exact ⟨t, hc, .inr ⟨f.1, f.2, hfault⟩⟩

/-! ### Its information (R102) -/

/-- A fetch fails exactly where one of its two bytes lies above 0xFFF, with the lowest such address (R36). -/
theorem fetch_eq_error_iff (s : State) (a : Nat) :
    fetch s = .error a ↔ 0xFFE < s.pc.toNat ∧ max s.pc.toNat 0x1000 = a := by
  rcases Nat.lt_or_ge 0xFFE s.pc.toNat with h | h
  · simp [fetch_error s h, h]
  · simp [fetch_ok s h, Nat.not_lt.2 h]

/-- The lowest address above 0xFFF fits into the information value. -/
theorem eq_ofNat_max_iff (info w : Word) :
    info = BitVec.ofNat 16 (max w.toNat 0x1000) ↔ info.toNat = max w.toNat 0x1000 := by
  rw [BitVec.toNat_eq, BitVec.toNat_ofNat, Nat.mod_eq_of_lt (by omega)]

theorem eq_byteWord_iff (info : Word) (b : Byte) : info = byteWord b ↔ info.toNat = b.toNat := by
  rw [BitVec.toNat_eq, byteWord, BitVec.toNat_setWidth_of_le (by decide)]

/-- The block of registers V0..Vx ends at offset x. -/
theorem lt_add_succ_iff (a x : Nat) : 0x1000 < a + (x + 1) ↔ 0xFFF < a + x := Nat.succ_lt_succ_iff

/-! ### The faults of the instructions -/

section
variable (s : State) (c : Cause) (info : Word)

/-- A check that raises one fault, with one information value. -/
theorem checkFault_eq_some_iff (p : Prop) [Decidable p] (d : Cause) (w : Word) :
    (if p then some (d, w) else none) = some (c, info) ↔ c = d ∧ p ∧ info = w := by
  by_cases h : p
  · simp [h, eq_comm]
  · simp [h]

theorem readFault_eq (n : Nat) :
    accessFault readCheck n s = if n ≠ 0 ∧ 0x1000 < s.I.toNat + n then
      some (.addressRange, BitVec.ofNat 16 (max s.I.toNat 0x1000)) else none := by
  by_cases h : n ≠ 0 ∧ 0x1000 < s.I.toNat + n
  · rw [if_pos h, accessFault, State.dataAddr, Nat.add_zero, firstFault_read_some _ _ h.1 h.2, Option.map_some]
  · rw [if_neg h, accessFault, State.dataAddr, Nat.add_zero, (firstFault_read_none _ _).2 (by omega), Option.map_none]

theorem keyFault_eq (x : Reg) :
    keyFault x s = if 15 < s.V[x].toNat then some (.keyRange, byteWord s.V[x]) else none := by
  rcases keyOperand_cases s.V[x] with ⟨h, hk⟩ | ⟨h, hk⟩
  · rw [if_neg (by omega), keyFault, State.reg_eq, hk]; rfl
  · rw [if_pos (by omega), keyFault, State.reg_eq, hk]; rfl

/-- A store of at most 16 bytes that begins below 0x200 ends far below 0x1000: the two faults exclude each other. -/
theorem storeFault_eq_some_iff (bs : List Byte) (h0 : bs.length ≠ 0) (h16 : bs.length ≤ 16) :
    storeFault bs s = some (c, info) ↔
      (c = .reservedWrite ∧ s.I.toNat < 0x200 ∧ info = s.I) ∨
      (c = .addressRange ∧ 0x1000 < s.I.toNat + bs.length ∧ info.toNat = max s.I.toNat 0x1000) := by
  rw [storeFault, accessFault, State.dataAddr, Nat.add_zero, ← eq_ofNat_max_iff]
  rcases Nat.lt_or_ge s.I.toNat 0x200 with h | h
  · have h' : ¬0x1000 < s.I.toNat + bs.length := by omega
    simp [firstFault_write_reserved _ _ h0 h, h, h', eq_comm]
  · rcases Nat.lt_or_ge 0x1000 (s.I.toNat + bs.length) with h' | h'
    · simp [firstFault_write_range _ _ h0 h h', Nat.not_lt.2 h, h', eq_comm]
    · simp [(firstFault_write_none _ _).2 (.inr ⟨h, h'⟩), Nat.not_lt.2 h, Nat.not_lt.2 h']

/-- When an instruction raises a fault of the cause with `info`: the rows of R102, fetch and decoding apart. -/
def Raises (i : Instr) : Cause → Prop
  | .invalidInstruction => False
  | .stackOverflow => (∃ nnn, i = .call nnn) ∧ s.SP.val = 16 ∧ info = s.pc
  | .stackUnderflow => i = .ret ∧ s.SP.val = 0 ∧ info = s.pc
  | .addressRange => info.toNat = max s.I.toNat 0x1000 ∧
      ((∃ x y n, i = .drw x y n ∧ n.val ≠ 0 ∧ 0x1000 < s.I.toNat + n.val) ∨
        (∃ x, i = .ldB x ∧ 0x1000 < s.I.toNat + 3) ∨
        (∃ x, i = .storeRegs x ∧ 0x1000 < s.I.toNat + (x.val + 1)) ∨
        ∃ x, i = .loadRegs x ∧ 0x1000 < s.I.toNat + (x.val + 1))
  | .reservedWrite => (∃ x, i = .ldB x ∨ i = .storeRegs x) ∧ s.I.toNat < 0x200 ∧ info = s.I
  | .keyRange => ∃ x, (i = .skp x ∨ i = .sknp x) ∧ 15 < s.V[x].toNat ∧ info.toNat = s.V[x].toNat

theorem faultOf_eq_some_iff (i : Instr) : faultOf i s = some (c, info) ↔ Raises s info i c := by
  cases i
  case ret | call =>
    rw [faultOf, checkFault_eq_some_iff]
    cases c <;> simp [Raises]
  case drw | loadRegs =>
    rw [faultOf, readFault_eq, checkFault_eq_some_iff, eq_ofNat_max_iff]
    cases c <;> simp [Raises, and_comm]
  case ldB x =>
    rw [faultOf, storeFault_eq_some_iff s c info _ (by simp) (by simp)]
    cases c <;> simp [Raises, and_comm]
  case storeRegs x =>
    have hlen := s.regBlock_length x
    rw [faultOf, storeFault_eq_some_iff s c info _ (by omega) (by omega), hlen]
    cases c <;> simp [Raises, and_comm]
  case skp | sknp =>
    rw [faultOf, keyFault_eq, checkFault_eq_some_iff, eq_byteWord_iff]
    cases c <;> simp [Raises]
  -- no other instruction checks anything
  all_goals cases c <;> simp [Raises, faultOf]

end

/-- Settles O43: the rows that can apply are those of the fetch, of the word's decoding, or of the decoded instruction,
by how far the OP_CYCLE comes. -/
theorem faultCausesAreThese : Obligations.FaultCausesAreThese := by
  refine ⟨⟨rfl, rfl, rfl, rfl, rfl, rfl⟩, fun rnd s c info hs => ?_⟩
  rw [resultOf_cycle_eq_fault_iff s c info rnd hs]
  cases hf : fetch s with
  | error a =>
    obtain ⟨hpc, rfl⟩ := (fetch_eq_error_iff s a).1 hf
    rw [cycleFault_of_fetch_error s _ hf]
    cases c <;> simp [hpc, ← eq_ofNat_max_iff, eq_comm]
  | ok op =>
    have hpc : ¬0xFFE < s.pc.toNat := Nat.not_lt.2 (fetch_ok_pc s op hf)
    cases hd : decode op with
    | error r =>
      have hv : op = info → InvalidWord info := by rintro rfl; exact ((decode_eq_error_iff op r).1 hd).1
      rw [cycleFault_of_decode_error s op r hf hd]
      cases c
      case invalidInstruction => simpa using hv
      all_goals simp [hpc, hd]
    | ok i =>
      have hv : op = info → ¬InvalidWord info := by
        rintro rfl hv
        cases hd.symm.trans ((decode_eq_error_iff op _).2 ⟨hv, rfl⟩)
      rw [cycleFault_of_decode s op i hf hd, faultOf_eq_some_iff]
      cases c
      case invalidInstruction => simpa [Raises] using hv
      all_goals simp [Raises, hpc, hd, lt_add_succ_iff]

/-! ### How long a halt lasts (R106) -/

theorem opKey_cases (pressed : Bool) (k : Nat) (s t : State) (h : opKey pressed k s = .next t) :
    ∃ key : Key, key.val = k ∧ t = s.setKey key pressed := by
  rcases Nat.lt_or_ge k 16 with hk | hk
  · rw [opKey_ok s pressed k hk] at h; cases h; exact ⟨⟨k, hk⟩, rfl, rfl⟩
  · rw [opKey_refused s pressed k hk] at h; cases h

theorem opCreate_status (rom : List Byte) (s t : State) (h : opCreate rom s = .next t) : t.status = .running := by
  rcases Nat.lt_or_ge 3584 rom.length with hl | hl
  · rw [opCreate_error s rom hl] at h; cases h
  · rw [opCreate_ok s rom hl] at h; cases h; rfl

/-- Settles O44: OP_CYCLE leaves a halted block as it is, a load runs, and every other operation keeps the status. -/
theorem haltedUntilCreate : Obligations.HaltedUntilCreate := by
  intro s c info hs
  have hcycle (rnd : Byte) := opCycle_halted s rnd c info hs
  refine ⟨fun rnd => ⟨hcycle rnd, by simp only [resultOf, hs]⟩, fun op t h hne => ?_⟩
  cases op with
  | create rom => exact ⟨opCreate_status rom s t h, rom, rfl⟩
  | cycle rnd => cases (hcycle rnd).symm.trans h; exact absurd hs hne
  | press k | release k => obtain ⟨key, -, rfl⟩ := opKey_cases _ k s t h; exact absurd hs hne
  | tick | readDisplay | clearDirty => cases h; exact absurd hs hne

end Sys2Proof.Machine
end

section
/-!
SUPPORT. The host operations (spec/60_exceptions.md R107-R116): loads that are refused, OP_TICK and `sound_on`, the
keypad and the display.
-/
namespace Sys2Proof.Machine

/-! ### The status does not matter (R107) -/

theorem opKey_setStatus (pressed : Bool) (k : Nat) (s : State) (st : Status) :
    opKey pressed k (s.setStatus st) = mapNext (State.setStatus st) (opKey pressed k s) := by
  rcases Nat.lt_or_ge k 16 with h | h
  · simp only [opKey_ok _ pressed k h, mapNext]; rfl
  · simp only [opKey_refused _ pressed k h, mapNext]

/-- Only an OP_CYCLE's result depends on the next state, by its status. -/
theorem resultOfOutcome_mapNext (f : State → State) (r : Result) :
    resultOfOutcome false (mapNext f r) = resultOfOutcome false r := by
  cases r <;> rfl

/-- Settles O45: the keypad operations commute with a change of status, and the others do not look at it. -/
theorem hostOperationsIgnoreStatus : Obligations.HostOperationsIgnoreStatus := by
  intro s st k
  have hkey (pressed : Bool) := opKey_setStatus pressed k s st
  have hresult (pressed : Bool) : resultOfOutcome false (opKey pressed k (s.setStatus st)) =
      resultOfOutcome false (opKey pressed k s) := by rw [hkey, resultOfOutcome_mapNext]
  refine ⟨rfl, fun op hop => ?_⟩
  simp only [List.mem_cons, List.not_mem_nil, or_false] at hop
  rcases hop with rfl | rfl | rfl | rfl | rfl
  · exact ⟨rfl, rfl⟩
  · exact ⟨hkey true, hresult true⟩
  · exact ⟨hkey false, hresult false⟩
  · exact ⟨rfl, rfl⟩
  · exact ⟨rfl, rfl⟩

/-! ### Timers (R112, R113) -/

theorem timerDown_toNat (b : Byte) : (timerDown b).toNat = b.toNat - 1 := by
  unfold timerDown
  split
  · bv_omega
  · omega

/-- Settles O49: both timers are written with their value taken down, and nothing else is. -/
theorem tickTimers : Obligations.TickTimers := fun s =>
  ⟨opTick s, rfl, timerDown_toNat s.DT, timerDown_toNat s.ST, rfl, fun _ => rfl⟩

theorem soundOn_congr {s t : State} (h : t.ST = s.ST) : t.soundOn = s.soundOn := by
  rw [State.soundOn, h, State.soundOn]

/-- Settles O50: `sound_on` is a function of ST, which only Fx18 writes among the instructions and OP_TICK among these
operations. -/
theorem soundOnFollowsTimer : Obligations.SoundOnFollowsTimer := by
  refine ⟨State.soundOn_iff, fun i s t h hne => ?_, fun k s t op hop h => soundOn_congr ?_⟩
  · obtain ⟨-, -, -, -, hST, -⟩ := writersOfEachState i s t h
    exact hST fun e => hne (soundOn_congr e)
  · simp only [List.mem_cons, List.not_mem_nil, or_false] at hop
    rcases hop with rfl | rfl | rfl | rfl
    · obtain ⟨key, -, rfl⟩ := opKey_cases true k s t h; rfl
    · obtain ⟨key, -, rfl⟩ := opKey_cases false k s t h; rfl
    · cases h; rfl
    · cases h; rfl

/-! ### Keys (R115) -/

theorem setKey_of_same (k : Key) (s : State) (pressed : Bool) (h : s.K[k] = pressed) : s.setKey k pressed = s := by
  subst h
  simp [State.setKey]

theorem opKey_sets (pressed : Bool) (k : Nat) (s : State) (h : k < 16) :
    ∃ t, opKey pressed k s = .next t ∧ t.K[k] = pressed ∧ (∀ j : Key, j.val ≠ k → t.K[j] = s.K[j]) ∧
      t = { s with K := t.K } ∧ (s.K[k] = pressed → t = s) :=
  ⟨_, opKey_ok s pressed k h, Vector.getElem_set_self h, fun j hj => Vector.getElem_set_ne h j.isLt hj.symm, rfl,
    setKey_of_same ⟨k, h⟩ s pressed⟩

/-- Settles O51: both operations write the one key, or are refused. -/
theorem pressAndRelease : Obligations.PressAndRelease := by
  intro k s
  refine ⟨fun h => ⟨opKey_sets true k s h, opKey_sets false k s h⟩, fun h => ?_⟩
  have hrefused (pressed : Bool) := opKey_refused s pressed k h
  have hresult (pressed : Bool) := congrArg (resultOfOutcome false) (hrefused pressed)
  exact ⟨hrefused true, hrefused false, hresult true, hresult false⟩

/-! ### The display (R116) -/

/-- No instruction clears the dirty flag (R28), and neither does a fault or a halted block's OP_CYCLE. -/
theorem opCycle_keeps_dirty (rnd : Byte) (s t : State) (h : opCycle rnd s = .next t) (hd : s.dirty = true) :
    t.dirty = true := by
  rcases opCycle_cases rnd s t h with rfl | ⟨c, info, rfl⟩ | ⟨i, -, he⟩
  · exact hd
  · exact hd
  · obtain ⟨-, -, -, -, -, -, hdirty, -⟩ := writersOfEachState i _ t he
    by_contra hne
    exact hne (hdirty fun e => hne (e.trans hd)).1

/-- Settles O52: besides OP_CLEAR_DIRTY and a load no operation writes 0 to the dirty flag. -/
theorem displayInterface : Obligations.DisplayInterface := by
  refine ⟨fun s => ⟨rfl, rfl, rfl⟩, fun op s t h hd ht => ?_⟩
  cases op with
  | create rom => exact .inr ⟨rom, rfl⟩
  | clearDirty => exact .inl rfl
  | cycle rnd => cases ht.symm.trans (opCycle_keeps_dirty rnd s t h hd)
  | press k | release k => obtain ⟨key, -, rfl⟩ := opKey_cases _ k s t h; cases ht.symm.trans hd
  | tick | readDisplay => cases h; cases ht.symm.trans hd

/-! ### Refused loads (R109, R120) -/

/-- Settles O54: a ROM that is too long is refused by OP_CREATE itself, everything else for want of a block. -/
theorem refusedLoads : Obligations.RefusedLoads := by
  refine ⟨fun rom s h => ?_, fun op hop => ?_⟩
  · have hrefused (u : State) := opCreate_error u rom h
    exact ⟨hrefused s, congrArg (resultOfOutcome false) (hrefused s), hrefused State.reset⟩
  · cases op with
    | create rom => exact absurd rfl (hop rom)
    | cycle | tick | press | release | readDisplay | clearDirty => rfl

end Sys2Proof.Machine
end

section
/-!
SUPPORT. Hazards (spec/70_reset_and_hazards.md R122, R125): zeroed program memory, and a host operation between two cycles.
-/
namespace Sys2Proof.Machine

/-! ### Zeroed memory (R122) -/

/-- A zero word is invalid (R58), so a running block that fetches one faults. -/
theorem resultOf_cycle_zero_word (rnd : Byte) (s : State) (hs : s.status = .running) (hf : fetch s = .ok 0x0000) :
    resultOf (.cycle rnd) s = .fault .invalidInstruction 0x0000 := by
  have hv : InvalidWord 0x0000 := .inl (by decide)
  obtain ⟨-, hcycle⟩ := (invalidWordsAreThese 0x0000).2 hv
  obtain ⟨-, -, -, hfault⟩ := hcycle rnd s hs hf
  exact hfault

/-- The program region holds only zero bytes after a load of nothing. -/
theorem created_nil_read_program (e : Env) (a : Nat) (h : 0x200 ≤ a) : (created [] e).M.read a = 0 := by
  rw [created_read, dif_neg (by simp), resetByte_program a h]

theorem fetch_created_nil (e : Env) : fetch (created [] e) = .ok 0x0000 := by
  have hpc : (created [] e).pc.toNat = 0x200 := rfl
  rw [fetch_ok _ (by omega), hpc, created_nil_read_program e 0x200 (by omega), created_nil_read_program e _ (by omega)]
  rfl

/-- Settles O55: the load is accepted, and the first cycle fetches a zero word. -/
theorem emptyRomFaultsAtOnce : Obligations.EmptyRomFaultsAtOnce := fun rnd s =>
  ⟨created [] s.env, opCreate_ok s [] (Nat.zero_le _),
    resultOf_cycle_zero_word rnd _ (created_status [] s.env) (fetch_created_nil s.env)⟩

/-! ### A tick between two cycles (R125) -/

/-- Settles O56: Fx15 hands V[x] to DT, OP_TICK takes DT down, and Fx07 hands it to V[y]. -/
theorem tickBetweenSetAndRead : Obligations.TickBetweenSetAndRead := by
  intro x y s
  obtain ⟨-, -, -, htransfers⟩ := timerTransfers
  obtain ⟨-, ⟨t, hset, ht, -⟩, -⟩ := htransfers x s
  obtain ⟨u, htick, hdown, -⟩ := tickTimers t
  obtain ⟨⟨v, hread, hv, -⟩, -⟩ := htransfers y u
  refine ⟨t, u, v, hset, htick, hread, ?_⟩
  calc v.V[y].toNat = u.DT.toNat := by rw [hv]
    _ = t.DT.toNat - 1 := hdown
    _ = s.V[x].toNat - 1 := by rw [ht]

end Sys2Proof.Machine
end
